-- ==== Sys2Proof/Word.lean ====
section
/-! DEFINITION. The byte, the unit of both memories and of the line (spec 00_scope.md R6, 20_memory.md R40). -/

namespace Sys2Proof

/-- Byte means 8 bits (R6). -/
abbrev Byte := BitVec 8

end Sys2Proof
end

