-- ==== Sys2Proof/Config.lean ====
section
/-! DEFINITION. What an implementation fixes (the parameters of 00_scope.md R4) and the free values: the power-on
contents of the two memories, which the spec leaves unspecified (93_implementation_defined.md U1, U2). -/

namespace Sys2Proof

/-- The parameters of R4, fixed for the lifetime of an instance. `GROUP_ADDRS` is a set: its canonical list is
strictly ascending (`Params.WF`). -/
structure Params where
  /-- `K`, log2 of the ring capacity. -/
  k : Nat
  /-- `OWN_ADDR`, this node's address. -/
  ownAddr : Byte
  /-- `GROUP_ADDRS`, the other destination values this node accepts. -/
  groupAddrs : List Byte
  /-- `MAX_PAYLOAD`, the largest payload length the node sends. -/
  maxPayload : Nat
deriving DecidableEq, Repr

/-- DESIGN CHOICE (log 1): the spec gives the parameters no values; this is the instance its own test vectors use
(95_test_vectors.md section 0), the one `State.reset` stands at. -/
def Params.reference : Params := { k := 5, ownAddr := 0x01#8, groupAddrs := [], maxPayload := 26 }

/-- DESIGN CHOICE (log 2): the byte `RING[i]` holds from power-on until a push writes it (U1), a free value. -/
opaque Config.ringPowerOn : Nat → Byte

/-- DESIGN CHOICE (log 3): the byte `TXBUF[i]` holds from power-on until the host writes it (U2), a free value. -/
opaque Config.txbufPowerOn : Nat → Byte

end Sys2Proof
end

