-- ==== Sys2Proof/Syntax.lean ====
section
/-! DEFINITION. The operations of spec/opcode_table.json, one constructor a row, and the words that arrive at the
block's input ports (10_state.md R23). -/

namespace Sys2Proof

/-- One stimulus at an input port (R23): a host command word (R66), a received-character word (R65), the `tx_event`
pulse or the `reset` pulse. -/
inductive PortWord where
  | cmd (w : BitVec 36)
  | rx (w : BitVec 12)
  | txEvent
  | reset
deriving DecidableEq, Repr

/-- Who starts a step (R8, R170): the host, the receive line, the transmit line, or the reset input. -/
inductive Agent where
  | host
  | rxLine
  | txLine
  | resetLine
deriving DecidableEq, Repr

/-- The operations. A command carries the argument fields it uses and no others (R66: the others are ignored). A
received character carries the bits its row leaves open: the error flags tested later, the marker and the data. -/
inductive Instr where
  /-- `NOP`, R151. -/
  | nop
  /-- `BUS_INIT`, R152. -/
  | busInit
  /-- `BUS_STATUS`, R104. -/
  | busStatus
  /-- `CURRENT_FRAME n`, R105. -/
  | currentFrame (n : BitVec 16)
  /-- `PACKET_DONE`, R106. -/
  | packetDone
  /-- `SKIP_BYTE`, R107. -/
  | skipByte
  /-- `SEND a b n`, R134. -/
  | send (a b : Byte) (n : BitVec 16)
  /-- `SEND_RAW n`, R137. -/
  | sendRaw (n : BitVec 16)
  /-- `ENCODE_FRAME a b n`, R84. -/
  | encodeFrame (a b : Byte) (n : BitVec 16)
  /-- `RECOVER`, R154. -/
  | recover
  /-- `OCCUPANCY`, R96. -/
  | occupancy
  /-- `TXBUF_WRITE a n`, R131. -/
  | txbufWrite (a : Byte) (n : BitVec 16)
  /-- `FAULT_CAUSE`, R156. -/
  | faultCause
  /-- op 0xD, R157. -/
  | reservedD
  /-- op 0xE, R157. -/
  | reservedE
  /-- op 0xF, R157. -/
  | reservedF
  /-- `RX_BYTE` with `dor = 1`, R118. -/
  | rxErrOverrun (fe pe m : Bool) (data : Byte)
  /-- `RX_BYTE` with `dor = 0`, `fe = 1`, R118. -/
  | rxErrFraming (pe m : Bool) (data : Byte)
  /-- `RX_BYTE` with only `pe = 1`, R118. -/
  | rxErrParity (m : Bool) (data : Byte)
  /-- Error-free marked character whose data is accepted, R119. -/
  | rxAddrMatch (data : Byte)
  /-- Error-free marked character whose data is not accepted, R120. -/
  | rxAddrMismatch (data : Byte)
  /-- Error-free unmarked character, R122. -/
  | rxData (data : Byte)
  /-- `TX_EVENT`, R138. -/
  | txEvent
  /-- hardware reset, R180. -/
  | reset
deriving DecidableEq, Repr

end Sys2Proof
end

