-- ==== Sys2Proof/Machine/Operands.lean ====
section
/-! DEFINITION. The quantities derived from the parameters (00_scope.md R4), the address comparison
(43_address_filter.md R123), the fields of the port words (30_encoding.md R65, R66) and the agent that starts each
operation (60_exceptions.md R170). -/

namespace Sys2Proof

/-- `CAP = 2^K` (R4). -/
def Params.cap (p : Params) : Nat := 2 ^ p.k

/-- `2^(K+1)`, the modulus of the cursors (R13, R14, R91). -/
def Params.cursorMod (p : Params) : Nat := 2 ^ (p.k + 1)

/-- `TXCAP = 6 + MAX_PAYLOAD` (R4). -/
def Params.txcap (p : Params) : Nat := 6 + p.maxPayload

/-- `PCHK`, the constant every sender writes as payload checksum (R4, R61). -/
def pchk : Byte := 0xFF#8

/-- `accept(a)`, the address comparison (R123). -/
def accept (p : Params) (a : Byte) : Bool := a == p.ownAddr || p.groupAddrs.contains a

/-! Fields of the command word (R66). -/

def cmdOp (w : BitVec 36) : BitVec 4 := w.extractLsb' 32 4
def cmdA (w : BitVec 36) : Byte := w.extractLsb' 24 8
def cmdB (w : BitVec 36) : Byte := w.extractLsb' 16 8
def cmdN (w : BitVec 36) : BitVec 16 := w.extractLsb' 0 16

/-- A command word from its fields: `{op, a, b, n}`, `op` in the high bits (R6, R66). -/
def cmdWord (op : BitVec 4) (a b : Byte) (n : BitVec 16) : BitVec 36 := op ++ a ++ b ++ n

/-! Fields of the received-character word (R65). -/

def rxDor (w : BitVec 12) : Bool := w.getLsbD 11
def rxFe (w : BitVec 12) : Bool := w.getLsbD 10
def rxPe (w : BitVec 12) : Bool := w.getLsbD 9
def rxM (w : BitVec 12) : Bool := w.getLsbD 8
def rxDataBits (w : BitVec 12) : Byte := w.extractLsb' 0 8

/-- A received-character word from its fields: `{dor, fe, pe, m, data}` (R65). -/
def rxWord (dor fe pe m : Bool) (data : Byte) : BitVec 12 :=
  BitVec.ofBool dor ++ BitVec.ofBool fe ++ BitVec.ofBool pe ++ BitVec.ofBool m ++ data

/-- The emitted-character word `{m, data}` (R65). -/
def txWord (m : Bool) (data : Byte) : BitVec 9 := BitVec.ofBool m ++ data

/-- The agent whose step an operation is (R170). -/
def Instr.agent : Instr → Agent
  | .nop => .host
  | .busInit => .host
  | .busStatus => .host
  | .currentFrame _ => .host
  | .packetDone => .host
  | .skipByte => .host
  | .send _ _ _ => .host
  | .sendRaw _ => .host
  | .encodeFrame _ _ _ => .host
  | .recover => .host
  | .occupancy => .host
  | .txbufWrite _ _ => .host
  | .faultCause => .host
  | .reservedD => .host
  | .reservedE => .host
  | .reservedF => .host
  | .rxErrOverrun _ _ _ _ => .rxLine
  | .rxErrFraming _ _ _ => .rxLine
  | .rxErrParity _ _ => .rxLine
  | .rxAddrMatch _ => .rxLine
  | .rxAddrMismatch _ => .rxLine
  | .rxData _ => .rxLine
  | .txEvent => .txLine
  | .reset => .resetLine

end Sys2Proof
end

