-- ==== Sys2Proof/WellFormed.lean ====
section
/-! DEFINITION. Which parameters and which operations are well formed. Every field of an operation is a bit vector or
a bit, so only the two address rows need a check: they share their words and the parameters tell them apart
(43_address_filter.md R123, spec/opcode_table.json). -/

namespace Sys2Proof

/-- The ranges of R4, and the canonical form of the set `GROUP_ADDRS`. -/
abbrev Params.WF (p : Params) : Prop :=
  3 ≤ p.k ∧ p.k ≤ 16 ∧ p.maxPayload + 6 ≤ p.cap ∧ p.groupAddrs.Pairwise (· < ·)

/-- An address row is well formed where the comparison of R123 gives its case; `exec` does not compare again (log 11). -/
def Instr.wf (p : Params) : Instr → Bool
  | .nop => true
  | .busInit => true
  | .busStatus => true
  | .currentFrame _ => true
  | .packetDone => true
  | .skipByte => true
  | .send _ _ _ => true
  | .sendRaw _ => true
  | .encodeFrame _ _ _ => true
  | .recover => true
  | .occupancy => true
  | .txbufWrite _ _ => true
  | .faultCause => true
  | .reservedD => true
  | .reservedE => true
  | .reservedF => true
  | .rxErrOverrun _ _ _ _ => true
  | .rxErrFraming _ _ _ => true
  | .rxErrParity _ _ => true
  | .rxAddrMatch data => accept p data
  | .rxAddrMismatch data => !accept p data
  | .rxData _ => true
  | .txEvent => true
  | .reset => true

end Sys2Proof
end

