-- ==== Sys2Proof/Decode.lean ====
section
/-! DEFINITION. The decoder: a port word to an operation (30_encoding.md R65 to R67, 43_address_filter.md R116),
total, and the reading of a raw word of spec/opcode_table.json, which rejects by name; then the encoder. -/

namespace Sys2Proof

/-- The command words: the operation code selects the row, unused argument fields are ignored (R66, R67, R69). -/
def decodeCmd (w : BitVec 36) : Instr :=
  match (cmdOp w).toNat with
  | 0x0 => .nop
  | 0x1 => .busInit
  | 0x2 => .busStatus
  | 0x3 => .currentFrame (cmdN w)
  | 0x4 => .packetDone
  | 0x5 => .skipByte
  | 0x6 => .send (cmdA w) (cmdB w) (cmdN w)
  | 0x7 => .sendRaw (cmdN w)
  | 0x8 => .encodeFrame (cmdA w) (cmdB w) (cmdN w)
  | 0x9 => .recover
  | 0xA => .occupancy
  | 0xB => .txbufWrite (cmdA w) (cmdN w)
  | 0xC => .faultCause
  | 0xD => .reservedD
  | 0xE => .reservedE
  | _ => .reservedF

/-- The received-character words: the disjoint cases of R67 and R116. -/
def decodeRx (p : Params) (w : BitVec 12) : Instr :=
  if rxDor w then .rxErrOverrun (rxFe w) (rxPe w) (rxM w) (rxDataBits w)
  else if rxFe w then .rxErrFraming (rxPe w) (rxM w) (rxDataBits w)
  else if rxPe w then .rxErrParity (rxM w) (rxDataBits w)
  else if rxM w then
    if accept p (rxDataBits w) then .rxAddrMatch (rxDataBits w) else .rxAddrMismatch (rxDataBits w)
  else .rxData (rxDataBits w)

/-- The operation a port word starts. The port itself selects commands, characters and pulses (R23, R67). -/
def decode (p : Params) : PortWord → Instr
  | .cmd w => decodeCmd w
  | .rx w => decodeRx p w
  | .txEvent => .txEvent
  | .reset => .reset

/-- Why a raw word of the operation table is no port word. -/
inductive DecodeError where
  /-- No input port has words of this many bits. -/
  | noSuchPort (nbits : Nat)
  /-- The word has a bit above the port's width. -/
  | wordTooWide (nbits w : Nat)
  /-- The pulse bit is 0: no pulse is presented. -/
  | noPulse
deriving DecidableEq, Repr

/-- The port word that a raw word `w` of the table stands for, `nbits` being its width in whole bytes: up to 8 bits a
pulse, up to 16 a received character (12 bits used), up to 40 a command (36 bits used). The table gives `TX_EVENT` and
`RESET` the same 1-bit word, because each has a port of its own; a raw word cannot tell them apart and stands for
`TX_EVENT` here, DESIGN CHOICE (log 8). -/
def portWordOfTable (nbits w : Nat) : Except DecodeError PortWord :=
  if nbits ≤ 8 then
    if w = 0 then .error .noPulse
    else if w = 1 then .ok .txEvent
    else .error (.wordTooWide nbits w)
  else if nbits ≤ 16 then
    if w < 2 ^ 12 then .ok (.rx (BitVec.ofNat 12 w)) else .error (.wordTooWide nbits w)
  else if nbits ≤ 40 then
    if w < 2 ^ 36 then .ok (.cmd (BitVec.ofNat 36 w)) else .error (.wordTooWide nbits w)
  else .error (.noSuchPort nbits)

/-- A raw table word decoded, or rejected by name. -/
def decodeRaw (p : Params) (nbits w : Nat) : Except DecodeError Instr :=
  match portWordOfTable nbits w with
  | .ok pw => .ok (decode p pw)
  | .error e => .error e

/-- The operation the decoder reads from a raw word of the table, at the parameters of `State.reset` (log 1): they
tell `RX_BYTE.ADDR_MATCH` from `RX_BYTE.ADDR_MISMATCH` (log 8). -/
def decodeTableWord (nbits w : Nat) : Option Instr :=
  match decodeRaw Params.reference nbits w with
  | .ok i => some i
  | .error _ => none

/-- The port word of an operation (R65 to R67). A field the operation does not use is written 0. -/
def encode : Instr → PortWord
  | .nop => .cmd (cmdWord 0x0#4 0 0 0)
  | .busInit => .cmd (cmdWord 0x1#4 0 0 0)
  | .busStatus => .cmd (cmdWord 0x2#4 0 0 0)
  | .currentFrame n => .cmd (cmdWord 0x3#4 0 0 n)
  | .packetDone => .cmd (cmdWord 0x4#4 0 0 0)
  | .skipByte => .cmd (cmdWord 0x5#4 0 0 0)
  | .send a b n => .cmd (cmdWord 0x6#4 a b n)
  | .sendRaw n => .cmd (cmdWord 0x7#4 0 0 n)
  | .encodeFrame a b n => .cmd (cmdWord 0x8#4 a b n)
  | .recover => .cmd (cmdWord 0x9#4 0 0 0)
  | .occupancy => .cmd (cmdWord 0xA#4 0 0 0)
  | .txbufWrite a n => .cmd (cmdWord 0xB#4 a 0 n)
  | .faultCause => .cmd (cmdWord 0xC#4 0 0 0)
  | .reservedD => .cmd (cmdWord 0xD#4 0 0 0)
  | .reservedE => .cmd (cmdWord 0xE#4 0 0 0)
  | .reservedF => .cmd (cmdWord 0xF#4 0 0 0)
  | .rxErrOverrun fe pe m data => .rx (rxWord true fe pe m data)
  | .rxErrFraming pe m data => .rx (rxWord false true pe m data)
  | .rxErrParity m data => .rx (rxWord false false true m data)
  | .rxAddrMatch data => .rx (rxWord false false false true data)
  | .rxAddrMismatch data => .rx (rxWord false false false true data)
  | .rxData data => .rx (rxWord false false false false data)
  | .txEvent => .txEvent
  | .reset => .reset

end Sys2Proof
end

