-- ==== Sys2Proof/Machine/Codec.lean ====
section
/-! DEFINITION. The pure functions of the frame codec (40_frame_codec.md R80 to R83). -/

namespace Sys2Proof.Machine

/-- `header_checksum`: the sum of the five bytes, reduced mod 256 (R81). -/
def headerChecksum (destination source payloadChecksum lengthHi lengthLo : Byte) : Byte :=
  BitVec.ofNat 8
    (destination.toNat + source.toNat + payloadChecksum.toNat + lengthHi.toNat + lengthLo.toNat)

/-- `length[15:8]` (R62). -/
def lengthHi (length : Nat) : Byte := BitVec.ofNat 8 (length / 256)

/-- `length[7:0]` (R62). -/
def lengthLo (length : Nat) : Byte := BitVec.ofNat 8 length

/-- The payload length of two header bytes, big-endian (R42, R62). -/
def lengthOf (hi lo : Byte) : Nat := hi.toNat * 256 + lo.toNat

/-- The 6 header bytes a sender writes, in frame order (R60, R82, R84, R134). -/
def headerBytes (destination source : Byte) (length : Nat) : List Byte :=
  [destination, source,
    headerChecksum destination source pchk (lengthHi length) (lengthLo length),
    pchk, lengthHi length, lengthLo length]

/-- `encode_frame`; `none` is `Oversize` (R82). -/
def encodedFrame (p : Params) (destination source : Byte) (payload : List Byte) : Option (List Byte) :=
  if payload.length > 65535 ∨ payload.length > p.maxPayload then none
  else some (headerBytes destination source payload.length ++ payload)

/-- The fields `validate_header` returns (R83). -/
structure ParsedHeader where
  destination : Byte
  source : Byte
  payloadChecksum : Byte
  length : Nat
deriving DecidableEq, Repr

/-- The results of `validate_header`. `short` is a call outside its precondition, with fewer than 6 bytes: no rule
makes one (R83). -/
inductive HeaderCheck where
  | short
  | mismatch
  | valid (h : ParsedHeader)
deriving DecidableEq, Repr

/-- `validate_header`: bytes after the sixth are ignored (R83). -/
def validateHeader : List Byte → HeaderCheck
  | d :: s :: c :: p :: hi :: lo :: _ =>
    if headerChecksum d s p hi lo = c then .valid ⟨d, s, p, lengthOf hi lo⟩ else .mismatch
  | _ => .short

/-- `6 + length` of a header window, read from its bytes 4 and 5 (R105, R106). -/
def frameLengthOf (h : List Byte) : Nat := 6 + lengthOf (h.getD 4 0) (h.getD 5 0)

end Sys2Proof.Machine
end

