-- ==== Sys2Proof/Machine/State.lean ====
section
/-! DEFINITION. The state of one instance (10_state.md R10), as plain data; the reasons the model can stop; the state
right after reset (70_reset_and_hazards.md R180). -/

namespace Sys2Proof.Machine

/-- The reception status (R17). -/
inductive Status where
  | idle
  | completeFrame
  | headerChecksumMismatch
  | faulted
deriving DecidableEq, Repr

/-- The result code of a command (R160). -/
inductive RspCode where
  | ok
  | errNotInit
  | errState
  | errBusy
  | errOversize
  | errRange
  | errBadCmd
deriving DecidableEq, Repr

/-- One entry of the line log (R133): a change of `de`, or an emitted character with its marker. -/
inductive LineEvent where
  | de (level : Bool)
  | ch (b : Byte) (m : Bool)
deriving DecidableEq, Repr

/-- A byte memory: the bytes written so far, addresses strictly rising (`Memory.wf`). An index that is not listed has
no value of its own here; its power-on byte is a free value of Config (logs 2 and 3). -/
abbrev Memory := List Host.Cell

/-- The tuple of R10, the parameters (log 1), the outputs of the last step (R23, log 5), the line log (R133, log 5)
and the stimuli still to come (log 4). -/
structure State where
  /-- The parameters of R4. No step writes them. -/
  params : Params
  /-- `en`, 1 after `BUS_INIT` (R22). -/
  en : Bool
  /-- `RING` (R40, R43). -/
  ring : Memory
  /-- `wr`, the write cursor, a natural kept below 2^(K+1) (R13; log 9). -/
  wr : Nat
  /-- `rd`, the read cursor, a natural kept below 2^(K+1) (R14; log 9). -/
  rd : Nat
  /-- `status` (R17). -/
  status : Status
  /-- `fault_cause` (R18). -/
  faultCause : BitVec 4
  /-- `af`, address filter armed (R19). -/
  af : Bool
  /-- `TXBUF` (R40, R44). -/
  txbuf : Memory
  /-- `tx_busy`, a send is in flight (R20). -/
  txBusy : Bool
  /-- `tx_pos`, the transmit cursor (R15). -/
  txPos : Nat
  /-- `tx_len`, the transmit counter (R16). -/
  txLen : Nat
  /-- `de`, the driver-enable level (R21). -/
  de : Bool
  /-- `de_oe`, the driver-enable pin is driven (R21). -/
  deOe : Bool
  /-- The word the last step put on `rsp`, if it was a command (R23, R68). -/
  rsp : Option (BitVec 21)
  /-- The word the last step put on `tx`, if it emitted a character (R23, R65). -/
  tx : Option (BitVec 9)
  /-- The line log, oldest first (R133): an observation. -/
  lineLog : List LineEvent
  /-- The stimuli the outside has still to present, next first (R8, R23): an input. -/
  inputs : List PortWord
deriving DecidableEq, Repr

/-- The ways the model stops with a fault. -/
inductive Fault where
  /-- Raised by the fetch of a byte to emit (`start`, `tx_next`) at an index `i >= TXCAP`, an address that does not
  exist (R44: no rule forms it). Safe: only a state that breaks the invariant of R15 gets here. -/
  | txbufNoSuchAddress (i : Nat)
deriving DecidableEq, Repr

/-- The ways the model refuses a step. -/
inductive Refusal where
  /-- An operation without a meaning yet. Raised by no arm. Safe. -/
  | notModelled (mnemonic : String)
  /-- Raised by `CURRENT_FRAME` and `PACKET_DONE` where the bytes they peek at lie outside the occupancy (U3, R94).
  Safe: only a state that breaks the invariant of R17 gets here. -/
  | peekOutsideWindow
  /-- Raised by `PACKET_DONE`, `SKIP_BYTE` and `RECOVER` where they would retire more bytes than are buffered (U4,
  R95). Safe: only a state that breaks the invariant of R17 gets here. -/
  | advancePastWrite
deriving DecidableEq, Repr

/-- The machine right after reset (R180, R181), at the parameters of log 1, no byte of either memory written, nothing
put out and nothing presented yet. -/
def State.reset : State where
  params := Params.reference
  en := false
  ring := []
  wr := 0
  rd := 0
  status := .idle
  faultCause := 0#4
  af := true
  txbuf := []
  txBusy := false
  txPos := 0
  txLen := 0
  de := false
  deOe := false
  rsp := none
  tx := none
  lineLog := []
  inputs := []

end Sys2Proof.Machine
end

