-- ==== Sys2Proof/Machine/Flags.lean ====
section
/-! DEFINITION. The codes of the status and of the results, the cause flags, the response word and the level outputs
(10_state.md R17, R18, R23; 30_encoding.md R68; 60_exceptions.md R160). -/

namespace Sys2Proof.Machine

/-- The 2-bit code of a status (R17). -/
def Status.code : Status → BitVec 2
  | .idle => 0#2
  | .completeFrame => 1#2
  | .headerChecksumMismatch => 2#2
  | .faulted => 3#2

/-- `rsp_code` (R160). -/
def RspCode.code : RspCode → BitVec 4
  | .ok => 0#4
  | .errNotInit => 1#4
  | .errState => 2#4
  | .errBusy => 3#4
  | .errOversize => 4#4
  | .errRange => 5#4
  | .errBadCmd => 6#4

/-- `rsp = {rsp_code[3:0], rsp_data[16:0]}` (R68). -/
def rspWord (c : RspCode) (data : BitVec 17) : BitVec 21 := c.code ++ data

/-- The cause bits of a flagged character: `{0, pe, fe, dor}` (R18, R118). -/
def receiveCauses (dor fe pe : Bool) : BitVec 4 :=
  BitVec.ofBool false ++ BitVec.ofBool pe ++ BitVec.ofBool fe ++ BitVec.ofBool dor

/-- `RING_OVERFLOW`, cause bit 3 (R18, R121). -/
def overflowCause : BitVec 4 := 0b1000#4

/-! The level outputs (R23). -/

def State.statusO (s : State) : BitVec 2 := s.status.code
def State.txBusyO (s : State) : Bool := s.txBusy
def State.deO (s : State) : Bool := s.de
def State.deOeO (s : State) : Bool := s.deOe

end Sys2Proof.Machine
end

