-- ==== Sys2Proof/Machine/Ops.lean ====
section
/-! DEFINITION. The named operations over memory and state that the meanings share: the byte memories
(20_memory.md), the receive ring (41_rx_ring.md), the detector (42_frame_detector.md), entering and leaving the fault
state (60_exceptions.md R166, R168), emitting characters (44_transmit.md R133, R136), and answering a command
(30_encoding.md R68, 45_system.md R150). -/

namespace Sys2Proof.Machine

/-- What a meaning answers. -/
abbrev Answer := Host.Outcome State Fault Refusal

/-! ### Byte memories -/

/-- The canonical form: addresses strictly rising, so that no address is listed twice. An unlisted address has no
value of its own, so no entry can equal it. -/
def Memory.wf : Memory → Bool
  | [] => true
  | [_] => true
  | c :: d :: rest => decide (c.1 < d.1) && Memory.wf (d :: rest)

/-- Every listed address lies below `size`. -/
def Memory.within (size : Nat) (m : Memory) : Bool := m.all fun c => decide (c.1 < size)

/-- The byte written at `i`, if one was. -/
def Memory.read : Memory → Nat → Option Byte
  | [], _ => none
  | (a, b) :: rest, i => if i = a then some b else Memory.read rest i

/-- Write one byte, keeping the canonical form. -/
def Memory.write : Memory → Nat → Byte → Memory
  | [], i, v => [(i, v)]
  | (a, b) :: rest, i, v =>
    if i < a then (i, v) :: (a, b) :: rest
    else if i = a then (a, v) :: rest
    else (a, b) :: Memory.write rest i v

/-- `MemWrite` of consecutive bytes from `i` (R7). -/
def Memory.writeList : Memory → Nat → List Byte → Memory
  | m, _, [] => m
  | m, i, v :: vs => Memory.writeList (Memory.write m i v) (i + 1) vs

/-- `RING[i]`: the byte last pushed there, else its power-on byte (R43, R46, U1; log 2). -/
def readRing (s : State) (i : Nat) : Byte := (Memory.read s.ring i).getD (Config.ringPowerOn i)

/-- `TXBUF[i]`: the byte last written there, else its power-on byte (R44, R46, U2; log 3). -/
def readTxbuf (s : State) (i : Nat) : Byte := (Memory.read s.txbuf i).getD (Config.txbufPowerOn i)

/-! ### Answers and outputs -/

/-- A step begins with nothing on `rsp` and `tx`: both are produced by the step (R23; log 5). -/
def clearOutputs (s : State) : State := { s with rsp := none, tx := none }

/-- Put a response word on `rsp` (R68). -/
def respond (c : RspCode) (data : BitVec 17) (s : State) : State := { s with rsp := some (rspWord c data) }

/-- A refused command: the error code, `rsp_data = 0`, nothing emitted, nothing changed (R68, R150). -/
def reject (c : RspCode) (s : State) : Answer := .next (respond c 0#17 (clearOutputs s))

/-- A command that returns `OK(data)` and changes nothing else (R7). -/
def answerOk (data : BitVec 17) (s : State) : Answer := .next (respond .ok data s)

/-- Check (2) of R150: refused with `ERR_NOT_INIT` while `en = 0` (R161). -/
def ifInit (s : State) (body : Answer) : Answer := if s.en then body else reject .errNotInit s

/-- Refused with `ERR_BUSY` while a send is in flight (R135). -/
def ifNotBusy (s : State) (body : Answer) : Answer := if s.txBusy then reject .errBusy s else body

/-- Go on with the value of a micro-operation, or refuse by name where it was called outside its precondition. -/
def orRefuse {α : Type} (r : Refusal) (o : Option α) (body : α → Answer) : Answer :=
  match o with
  | some x => body x
  | none => .refused r

/-- Go on from a next state; a stop stays a stop. -/
def andThen (a : Answer) (body : State → Answer) : Answer :=
  match a with
  | .next s => body s
  | .fault f => .fault f
  | .refused r => .refused r

/-! ### The capability interface (R126) -/

/-- `enable_address_filter()`: `af <- 1`. -/
def enableAddressFilter (s : State) : State := { s with af := true }

/-- `disable_address_filter()`: `af <- 0`. -/
def disableAddressFilter (s : State) : State := { s with af := false }

/-! ### The receive ring -/

/-- The index in `RING` of a cursor value or a cursor plus an offset: the low K bits (R43). -/
def ringIndex (p : Params) (pos : Nat) : Nat := pos % p.cap

/-- `occupancy() = (wr - rd) mod 2^(K+1)` (R91). -/
def occupancy (s : State) : Nat :=
  (s.wr + (s.params.cursorMod - s.rd % s.params.cursorMod)) % s.params.cursorMod

/-- The byte at offset `i` from the read cursor, at `RING[(rd + i) mod CAP]` (R94). -/
def ringByte (s : State) (i : Nat) : Byte := readRing s (ringIndex s.params (s.rd + i))

/-- `push(byte)`: `none` is `Overflow`, with nothing changed (R92, R93). A ring that holds `CAP` bytes is full; more
than `CAP` is reached by no step (R91) and overflows too (log 7). -/
def push (data : Byte) (s : State) : Option State :=
  if occupancy s < s.params.cap then
    some { s with
      ring := Memory.write s.ring (ringIndex s.params s.wr) data
      wr := (s.wr + 1) % s.params.cursorMod }
  else none

/-- `peek_window(offset, len)`; `none` outside the precondition `offset + len <= occupancy()` (R94, U3; log 6). -/
def peekWindow (s : State) (offset len : Nat) : Option (List Byte) :=
  if offset + len ≤ occupancy s then some ((List.range len).map fun i => ringByte s (offset + i)) else none

/-- `advance_read(n)`; `none` outside the precondition `n <= occupancy()` (R95, U4; log 6). -/
def advanceRead (n : Nat) (s : State) : Option State :=
  if n ≤ occupancy s then some { s with rd := (s.rd + n) % s.params.cursorMod } else none

/-- The unretired bytes, oldest first (R49, R97). -/
def queue (s : State) : List Byte := (List.range (occupancy s)).map (ringByte s)

/-! ### The detector -/

/-- `detect()` (R101). -/
def detect (s : State) : Status :=
  if occupancy s < 6 then .idle
  else
    match peekWindow s 0 6 with
    | none => .idle
    | some h =>
      match validateHeader h with
      | .short => .idle
      | .mismatch => .headerChecksumMismatch
      | .valid p => if 6 + p.length ≤ occupancy s then .completeFrame else .idle

/-- `update_status()` (R102). -/
def updateStatus (s : State) : State :=
  if s.status = .faulted then s
  else if detect s = .completeFrame then enableAddressFilter { s with status := .completeFrame }
  else { s with status := detect s }

/-! ### The fault state -/

/-- Entering the fault state, for every cause: `status <- Faulted`, the cause bits OR-ed in, `af <- 1` (R118, R121,
R166). -/
def enterFault (causes : BitVec 4) (s : State) : State :=
  enableAddressFilter { s with status := .faulted, faultCause := s.faultCause ||| causes }

/-- Leaving the fault state: flush the ring through the read cursor and resume (R154, R168). -/
def leaveFault (s : State) : Option State :=
  (advanceRead (occupancy s) s).map fun t =>
    { enableAddressFilter { t with faultCause := 0#4 } with status := .idle }

/-- `accept_and_push(data)` (R121). -/
def acceptAndPush (data : Byte) (s : State) : State :=
  match push data s with
  | some t => updateStatus t
  | none => enterFault overflowCause s

/-! ### The line -/

/-- Set `de`; the line log records a change (R21, R133). -/
def setDe (level : Bool) (s : State) : State :=
  if s.de = level then s else { s with de := level, lineLog := s.lineLog ++ [.de level] }

/-- `emit(b, m)`: one character on `tx`, recorded in the line log (R133). -/
def emit (b : Byte) (m : Bool) (s : State) : State :=
  { s with tx := some (txWord m b), lineLog := s.lineLog ++ [.ch b m] }

/-- The fetch of a byte to emit; an index at or beyond `TXCAP` does not exist (R44, R53; log 6). -/
def fetchTxbuf (s : State) (i : Nat) : Option Byte :=
  if i < s.params.txcap then some (readTxbuf s i) else none

/-- Emit `TXBUF[i]` with marker `m`. -/
def emitFromTxbuf (i : Nat) (m : Bool) (s : State) : Answer :=
  match fetchTxbuf s i with
  | some b => .next (emit b m s)
  | none => .fault (.txbufNoSuchAddress i)

/-- Write the header for `(a, b, n)` into `TXBUF[0..5]` (R84, R134). -/
def writeHeader (a b : Byte) (n : Nat) (s : State) : State :=
  { s with txbuf := Memory.writeList s.txbuf 0 (headerBytes a b n) }

/-- `start(n)`: assert `de`, emit the marked first byte, and hand over to the transmit events (R136). -/
def start (n : Nat) (s : State) : Answer :=
  andThen (emitFromTxbuf 0 true (setDe true { s with txLen := n })) fun t =>
    .next { t with txPos := 1, txBusy := true }

/-- A line event: it has no result channel, and is ignored while `en = 0` (R22, R116, R128, R138). -/
def lineEvent (body : State → State) (s : State) : State :=
  if s.en then body (clearOutputs s) else clearOutputs s

/-- An error-free character is dropped while `Faulted` (R116, R128). -/
def unlessFaulted (body : State → State) (s : State) : State :=
  if s.status = .faulted then s else body s

end Sys2Proof.Machine
end

