-- ==== Sys2Proof/Machine/AddressFilter.lean ====
section
/-! DEFINITION. `RX_BYTE` in its cases (43_address_filter.md R116 to R128). The order of R116's tests is: `en`, then
the error flags, then `Faulted`, then the marker; the decoder has read the flags and the marker, and told match from
mismatch (R123; log 11). -/

namespace Sys2Proof.Machine

/-- `receive_fault(dor, fe, pe)` (R118): the character is discarded, whatever its marker and data. -/
def receiveFault (dor fe pe : Bool) (s : State) : State := enterFault (receiveCauses dor fe pe) s

/-- `address_match(data)` (R119): the character is frame byte 0 and is kept. -/
def addressMatch (data : Byte) (s : State) : State := acceptAndPush data (disableAddressFilter s)

/-- `address_mismatch()` (R120): the filter is armed, the character dropped. -/
def addressMismatch (s : State) : State := enableAddressFilter s

/-- `data_char(data)` (R122). -/
def dataChar (data : Byte) (s : State) : State := if s.af then s else acceptAndPush data s

/-- `RX_BYTE` with `dor = 1` (R118): also in `Faulted`, where only causes accumulate. -/
def execRxErrOverrun (fe pe _m : Bool) (_data : Byte) (s : State) : Answer :=
  .next (lineEvent (receiveFault true fe pe) s)

/-- `RX_BYTE` with `dor = 0`, `fe = 1` (R118). -/
def execRxErrFraming (pe _m : Bool) (_data : Byte) (s : State) : Answer :=
  .next (lineEvent (receiveFault false true pe) s)

/-- `RX_BYTE` with only `pe = 1` (R118). -/
def execRxErrParity (_m : Bool) (_data : Byte) (s : State) : Answer :=
  .next (lineEvent (receiveFault false false true) s)

/-- `RX_BYTE`, marked and accepted (R119), in either filter mode (R117). -/
def execRxAddrMatch (data : Byte) (s : State) : Answer :=
  .next (lineEvent (unlessFaulted (addressMatch data)) s)

/-- `RX_BYTE`, marked and not accepted (R120), in either filter mode (R117). -/
def execRxAddrMismatch (_data : Byte) (s : State) : Answer :=
  .next (lineEvent (unlessFaulted addressMismatch) s)

/-- `RX_BYTE`, unmarked (R122). -/
def execRxData (data : Byte) (s : State) : Answer :=
  .next (lineEvent (unlessFaulted (dataChar data)) s)

end Sys2Proof.Machine
end

