-- ==== Sys2Proof/Machine/Detector.lean ====
section
/-! DEFINITION. The host commands that read or move the receive side (42_frame_detector.md R104 to R107,
41_rx_ring.md R96). -/

namespace Sys2Proof.Machine

/-- `BUS_STATUS` (R104): allowed while `en = 0`; the detector is not run again. -/
def execBusStatus (s : State) : Answer := answerOk (s.status.code.setWidth 17) (clearOutputs s)

/-- `OCCUPANCY` (R96). -/
def execOccupancy (s : State) : Answer :=
  ifInit s <| answerOk (BitVec.ofNat 17 (occupancy s)) (clearOutputs s)

/-- `CURRENT_FRAME` (R105): byte `n` of the complete frame at the read cursor, which is not consumed (R108). -/
def execCurrentFrame (n : BitVec 16) (s : State) : Answer :=
  ifInit s <|
    if s.status = .completeFrame then
      orRefuse .peekOutsideWindow (peekWindow s 0 6) fun h =>
        if frameLengthOf h ≤ n.toNat then reject .errRange s
        else
          orRefuse .peekOutsideWindow (peekWindow s n.toNat 1) fun bytes =>
            answerOk ((bytes.getD 0 0).setWidth 17) (clearOutputs s)
    else reject .errState s

/-- `PACKET_DONE` (R106): retire the frame at the read cursor, then run the detector again (R100). -/
def execPacketDone (s : State) : Answer :=
  ifInit s <|
    if s.status = .completeFrame then
      orRefuse .peekOutsideWindow (peekWindow s 0 6) fun h =>
        orRefuse .advancePastWrite (advanceRead (frameLengthOf h) (clearOutputs s)) fun t =>
          answerOk 0#17 (updateStatus t)
    else reject .errState s

/-- `SKIP_BYTE` (R107): discard the oldest byte, then run the detector again (R100). -/
def execSkipByte (s : State) : Answer :=
  ifInit s <|
    if s.status = .faulted then reject .errState s
    else if occupancy s = 0 then reject .errState s
    else
      orRefuse .advancePastWrite (advanceRead 1 (clearOutputs s)) fun t =>
        answerOk 0#17 (updateStatus t)

end Sys2Proof.Machine
end

