-- ==== Sys2Proof/Machine/System.lean ====
section
/-! DEFINITION. The system operations (45_system.md) and hardware reset (70_reset_and_hazards.md R180). -/

namespace Sys2Proof.Machine

/-- The assignments `BUS_INIT` and reset share: everything but the memories, `en` and `de_oe` (R152, R180). The line
log records `DE(0)` if `de` was 1 (R133, R152; for reset log 12). -/
def initialise (s : State) : State :=
  setDe false { s with
    wr := 0, rd := 0, status := .idle, faultCause := 0#4, af := true
    txBusy := false, txPos := 0, txLen := 0 }

/-- `NOP` (R151). -/
def execNop (s : State) : Answer := answerOk 0#17 (clearOutputs s)

/-- `BUS_INIT` (R152). -/
def execBusInit (s : State) : Answer :=
  answerOk 0#17 { initialise (clearOutputs s) with en := true, deOe := true }

/-- `RECOVER` (R154): the return from the fault state. -/
def execRecover (s : State) : Answer :=
  ifInit s <|
    if s.status = .faulted then
      orRefuse .advancePastWrite (leaveFault (clearOutputs s)) (answerOk 0#17)
    else reject .errState s

/-- `FAULT_CAUSE` (R156). -/
def execFaultCause (s : State) : Answer :=
  ifInit s <| answerOk (s.faultCause.setWidth 17) (clearOutputs s)

/-- Reserved op 0xD (R157): `ERR_BADCMD`, whatever `en` is (R150). -/
def execReservedD (s : State) : Answer := reject .errBadCmd s

/-- Reserved op 0xE (R157). -/
def execReservedE (s : State) : Answer := reject .errBadCmd s

/-- Reserved op 0xF (R157). -/
def execReservedF (s : State) : Answer := reject .errBadCmd s

/-- Hardware reset (R180). `RING` and `TXBUF` keep what they hold. -/
def execReset (s : State) : Answer :=
  .next { initialise (clearOutputs s) with en := false, deOe := false }

end Sys2Proof.Machine
end

