-- ==== Sys2Proof/Machine/Transmit.lean ====
section
/-! DEFINITION. The transmit buffer, the two sends and the transmit event (44_transmit.md R131 to R140), and
`ENCODE_FRAME` (40_frame_codec.md R84). -/

namespace Sys2Proof.Machine

/-- `TXBUF_WRITE` (R131). -/
def execTxbufWrite (a : Byte) (n : BitVec 16) (s : State) : Answer :=
  ifInit s <| ifNotBusy s <|
    if s.params.txcap ≤ n.toNat then reject .errRange s
    else answerOk 0#17 { clearOutputs s with txbuf := Memory.write s.txbuf n.toNat a }

/-- `ENCODE_FRAME` (R84): the header of `encode_frame`, written without starting a transmission. -/
def execEncodeFrame (a b : Byte) (n : BitVec 16) (s : State) : Answer :=
  ifInit s <| ifNotBusy s <|
    if s.params.maxPayload < n.toNat then reject .errOversize s
    else answerOk 0#17 (writeHeader a b n.toNat (clearOutputs s))

/-- `SEND` (R134). -/
def execSend (a b : Byte) (n : BitVec 16) (s : State) : Answer :=
  ifInit s <| ifNotBusy s <|
    if s.params.maxPayload < n.toNat then reject .errOversize s
    else andThen (start (6 + n.toNat) (writeHeader a b n.toNat (clearOutputs s))) (answerOk 0#17)

/-- `SEND_RAW` (R137): the content of `TXBUF` is not inspected. -/
def execSendRaw (n : BitVec 16) (s : State) : Answer :=
  ifInit s <| ifNotBusy s <|
    if n.toNat = 0 ∨ s.params.txcap < n.toNat then reject .errRange s
    else andThen (start n.toNat (clearOutputs s)) (answerOk 0#17)

/-- `tx_next()` (R139): the byte is fetched at this moment (R53). -/
def txNext (s : State) : Answer :=
  andThen (emitFromTxbuf s.txPos false s) fun t => .next { t with txPos := t.txPos + 1 }

/-- `tx_finish()` (R140). -/
def txFinish (s : State) : State := { setDe false s with txBusy := false }

/-- `TX_EVENT` (R138). -/
def execTxEvent (s : State) : Answer :=
  if s.en && s.txBusy then
    if s.txPos < s.txLen then txNext (clearOutputs s) else .next (txFinish (clearOutputs s))
  else .next (clearOutputs s)

end Sys2Proof.Machine
end

