-- ==== Sys2Proof/Machine/Dispatch.lean ====
section
/-! DEFINITION. One arm per operation, each one call of its meaning. -/

namespace Sys2Proof.Machine

def exec (i : Instr) (s : State) : Host.Outcome State Fault Refusal :=
  match i with
  | .nop => Sys2Proof.Machine.execNop s
  | .busInit => Sys2Proof.Machine.execBusInit s
  | .busStatus => Sys2Proof.Machine.execBusStatus s
  | .currentFrame n => Sys2Proof.Machine.execCurrentFrame n s
  | .packetDone => Sys2Proof.Machine.execPacketDone s
  | .skipByte => Sys2Proof.Machine.execSkipByte s
  | .send a b n => Sys2Proof.Machine.execSend a b n s
  | .sendRaw n => Sys2Proof.Machine.execSendRaw n s
  | .encodeFrame a b n => Sys2Proof.Machine.execEncodeFrame a b n s
  | .recover => Sys2Proof.Machine.execRecover s
  | .occupancy => Sys2Proof.Machine.execOccupancy s
  | .txbufWrite a n => Sys2Proof.Machine.execTxbufWrite a n s
  | .faultCause => Sys2Proof.Machine.execFaultCause s
  | .reservedD => Sys2Proof.Machine.execReservedD s
  | .reservedE => Sys2Proof.Machine.execReservedE s
  | .reservedF => Sys2Proof.Machine.execReservedF s
  | .rxErrOverrun fe pe m data => Sys2Proof.Machine.execRxErrOverrun fe pe m data s
  | .rxErrFraming pe m data => Sys2Proof.Machine.execRxErrFraming pe m data s
  | .rxErrParity m data => Sys2Proof.Machine.execRxErrParity m data s
  | .rxAddrMatch data => Sys2Proof.Machine.execRxAddrMatch data s
  | .rxAddrMismatch data => Sys2Proof.Machine.execRxAddrMismatch data s
  | .rxData data => Sys2Proof.Machine.execRxData data s
  | .txEvent => Sys2Proof.Machine.execTxEvent s
  | .reset => Sys2Proof.Machine.execReset s

end Sys2Proof.Machine
end

