-- ==== Sys2Proof/Machine/Step.lean ====
section
/-! DEFINITION. One step: the next stimulus the outside presents is decoded and carried out (00_scope.md R8,
20_memory.md R48). -/

namespace Sys2Proof.Machine

/-- One atomic step. The block fetches nothing (R12): each step is started by a stimulus at an input port (R23). With
none waiting nothing happens: the block changes state only in steps (R8) and never halts (R197), so the state stays
as it is (log 4). -/
def step (s : State) : Host.Outcome State Fault Refusal :=
  match s.inputs with
  | [] => .next s
  | w :: rest => exec (decode s.params w) { s with inputs := rest }

/-- `s` with a raw table word presented as the very next stimulus. A raw word that is no port word changes nothing. -/
def State.withFetchWord (s : State) (nbits w : Nat) : State :=
  match portWordOfTable nbits w with
  | .ok pw => { s with inputs := pw :: s.inputs }
  | .error _ => s

end Sys2Proof.Machine
end

