-- ==== Sys2Proof/Machine/PseudoOps.lean ====
section
/-! DEFINITION. The pseudo-operations of 30_encoding.md R71, as the lists of operations they expand to, and the
carrying out of a list of operations one step at a time (20_memory.md R48). A length or index that does not fit the
16-bit operand `n` has no encoding in R71; the expansions reduce it modulo 2^16 (DESIGN CHOICE, log 13). -/

namespace Sys2Proof.Machine

/-- The operations of a list carried out in order; a stop ends the run. -/
def execAll : List Instr → State → Answer
  | [], s => .next s
  | i :: rest, s => andThen (exec i s) (execAll rest)

/-- `TXBUF_WRITE` of consecutive bytes from index `i` (R71); an index of 65536 or more is reduced modulo 2^16
(DESIGN CHOICE, log 13). -/
def writeBytes : Nat → List Byte → List Instr
  | _, [] => []
  | i, b :: bs => .txbufWrite b (BitVec.ofNat 16 i) :: writeBytes (i + 1) bs

/-- `send(destination, source, payload)` (R71); a length of 65536 or more is reduced modulo 2^16 (DESIGN CHOICE,
log 13). -/
def sendFrame (destination source : Byte) (payload : List Byte) : List Instr :=
  writeBytes 6 payload ++ [.send destination source (BitVec.ofNat 16 payload.length)]

/-- `send(frame_bytes)` (R71); a length of 65536 or more is reduced modulo 2^16, so that 65536 bytes, which fill
`TXBUF` at `TXCAP = 65536`, end in `SEND_RAW n=0` (DESIGN CHOICE, log 13). -/
def sendBytes (bytes : List Byte) : List Instr :=
  writeBytes 0 bytes ++ [.sendRaw (BitVec.ofNat 16 bytes.length)]

/-- `encode_frame(destination, source, payload)` into the transmit buffer (R71); a length of 65536 or more is
reduced modulo 2^16 (DESIGN CHOICE, log 13). -/
def encodeInTxbuf (destination source : Byte) (payload : List Byte) : List Instr :=
  writeBytes 6 payload ++ [.encodeFrame destination source (BitVec.ofNat 16 payload.length)]

/-- `current_frame()`: the reads of a frame with `length` payload bytes (R71); an index of 65536 or more is reduced
modulo 2^16 (DESIGN CHOICE, log 13). -/
def readFrame (length : Nat) : List Instr :=
  (List.range (6 + length)).map fun n => .currentFrame (BitVec.ofNat 16 n)

/-- The characters a receiver gets for the bytes of a frame: the first marked, the others not (R63). `p` are the
receiver's parameters: they tell an accepted address from another (R123). -/
def frameCharacters (p : Params) : List Byte → List Instr
  | [] => []
  | b :: bs => (if accept p b then .rxAddrMatch b else .rxAddrMismatch b) :: bs.map .rxData

end Sys2Proof.Machine
end

