-- ==== Sys2Proof/Safety.lean ====
section
/-! DEFINITION. What holds of every state a run from reset can be in, in the words of 10_state.md and 41_rx_ring.md.
Claims take `BlockInv` as a premise where they are about such states. -/

namespace Sys2Proof.Machine

/-- The cursors are K+1 bits wide and the occupancy is at most `CAP` (R13, R14, R91). -/
abbrev CursorsOk (s : State) : Prop :=
  s.wr < s.params.cursorMod ∧ s.rd < s.params.cursorMod ∧ occupancy s ≤ s.params.cap

/-- Both memories are in canonical form and list only addresses that exist (R40). -/
abbrev MemoriesOk (s : State) : Prop :=
  Memory.wf s.ring = true ∧ Memory.within s.params.cap s.ring = true ∧
  Memory.wf s.txbuf = true ∧ Memory.within s.params.txcap s.txbuf = true

/-- Every byte in the window `[rd, wr)` was written by a push (R46, U1). -/
abbrev WindowWritten (s : State) : Prop :=
  ∀ j < occupancy s, (Memory.read s.ring (ringIndex s.params (s.rd + j))).isSome = true

/-- Outside the fault state the status is what the detector says of the ring (R17). -/
abbrev StatusCurrent (s : State) : Prop := s.status ≠ .faulted → s.status = detect s

/-- A cause is recorded exactly in the fault state (R18). -/
abbrev CauseMatchesStatus (s : State) : Prop := s.faultCause ≠ 0#4 ↔ s.status = .faulted

/-- The filter is armed behind a complete frame and in the fault state (R19, R102, R166). -/
abbrev FilterArmedWhenDone (s : State) : Prop :=
  s.status = .completeFrame ∨ s.status = .faulted → s.af = true

/-- The transmitter: `de = tx_busy`, the cursors in range (R15, R16, R20, R132). -/
abbrev TransmitterOk (s : State) : Prop :=
  s.de = s.txBusy ∧ s.txPos ≤ s.txLen ∧ s.txLen ≤ s.params.txcap ∧ (s.txBusy = true → 1 ≤ s.txPos)

/-- Before the first `BUS_INIT` the registers are as reset left them; afterwards the driver-enable pin is driven (R22,
R181). -/
abbrev EnableOk (s : State) : Prop :=
  if s.en then s.deOe = true
  else s.wr = 0 ∧ s.rd = 0 ∧ s.status = .idle ∧ s.af = true ∧ s.txBusy = false ∧ s.txPos = 0 ∧ s.txLen = 0 ∧
    s.deOe = false

/-- The invariant of the block. -/
abbrev BlockInv (s : State) : Prop :=
  s.params.WF ∧ CursorsOk s ∧ MemoriesOk s ∧ WindowWritten s ∧ StatusCurrent s ∧ CauseMatchesStatus s ∧
  FilterArmedWhenDone s ∧ TransmitterOk s ∧ EnableOk s

/-- A state in which no line event is owed to the block (R197). -/
abbrev Quiescent (s : State) : Prop := s.txBusy = false

end Sys2Proof.Machine
end

