-- ==== Sys2Proof/Certificates/Slice0/Obligations.lean ====
section
/-! DEFINITION. The statements about the model. The first part says in plain arithmetic what the rules say, apart from
the model's own definitions: ring indices, occupancy, header sums and words are written out from the spec's formulas.
A statement's next state names every field that changes; `with` leaves all others as they were, both memories
included. That `rsp` and `tx` hold what the step put on the output ports of R23 is the model's form (log 5). -/

namespace Sys2Proof.Claims

open Sys2Proof.Machine

/-- `s` after a command that answered this code and data and emitted nothing: the word is `code * 2^17 + data` (R68). -/
def answered (code data : Nat) (s : State) : State :=
  { s with rsp := some (BitVec.ofNat 21 (code * 2 ^ 17 + data)), tx := none }

/-- `s` after a step that drives neither `rsp` nor `tx`. -/
def silent (s : State) : State := { s with rsp := none, tx := none }

/-- `occupancy() = (wr - rd) mod 2^(K+1)` (R91), on integers. -/
def buffered (s : State) : Nat := (((s.wr : Int) - (s.rd : Int)) % (2 ^ (s.params.k + 1) : Int)).toNat

/-- The byte at offset `i` from the read cursor, `RING[(rd + i) mod CAP]` (R94). -/
def frameByte (s : State) (i : Nat) : Byte := readRing s ((s.rd + i) % 2 ^ s.params.k)

/-- `6 + length` of the header at the read cursor (R42, R101). -/
def frameLength (s : State) : Nat := 6 + (frameByte s 4).toNat * 256 + (frameByte s 5).toNat

/-- The checksum of the header at the read cursor holds: bytes 0, 1, 3, 4, 5 sum to byte 2 mod 256 (R60). -/
abbrev headerSumHolds (s : State) : Prop :=
  ((frameByte s 0).toNat + (frameByte s 1).toNat + (frameByte s 3).toNat + (frameByte s 4).toNat +
    (frameByte s 5).toNat) % 256 = (frameByte s 2).toNat

/-- The detector's three steps (R101). -/
abbrev Detects (s : State) (st : Status) : Prop :=
  (buffered s < 6 → st = .idle) ∧
  (6 ≤ buffered s → ¬ headerSumHolds s → st = .headerChecksumMismatch) ∧
  (6 ≤ buffered s → headerSumHolds s → frameLength s ≤ buffered s → st = .completeFrame) ∧
  (6 ≤ buffered s → headerSumHolds s → buffered s < frameLength s → st = .idle)

/-- `t` is `s` with the status the detector gives it, the filter armed if that is `CompleteFrame` (R102). -/
def Reevaluated (s t : State) : Prop :=
  ∃ st, Detects s st ∧ t = { s with status := st, af := s.af || decide (st = .completeFrame) }

/-- `t` is `s` after `accept_and_push(d)` (R121), for a ring that holds at most `CAP` bytes: the byte is stored at
`wr mod CAP` and the detector runs, or the ring is full and the overflow fault is entered. -/
def AcceptsAndPushes (d : Byte) (s t : State) : Prop :=
  (buffered s < 2 ^ s.params.k →
    ∃ m, Reevaluated { s with ring := m, wr := (s.wr + 1) % 2 ^ (s.params.k + 1) } t ∧
      ∀ i, readRing { s with ring := m } i = if i = s.wr % 2 ^ s.params.k then d else readRing s i) ∧
  (buffered s = 2 ^ s.params.k →
    t = { s with faultCause := s.faultCause ||| 0b1000#4, status := .faulted, af := true })

/-- The header `encode_frame` writes for `(d, s, n)` (R60, R82). -/
def header (d s : Byte) (n : Nat) : List Byte :=
  [d, s, BitVec.ofNat 8 (d.toNat + s.toNat + 255 + n / 256 + n % 256), 0xFF#8, BitVec.ofNat 8 (n / 256),
    BitVec.ofNat 8 (n % 256)]

/-- The emitted-character word `{m, data}` (R65). -/
def character (m : Bool) (b : Byte) : BitVec 9 := BitVec.ofNat 9 (m.toNat * 256 + b.toNat)

/-- The received-character word `{dor, fe, pe, m, data}` (R65). -/
def rxStimulus (dor fe pe m : Bool) (data : Byte) : PortWord :=
  .rx (BitVec.ofNat 12 (dor.toNat * 2048 + fe.toNat * 1024 + pe.toNat * 512 + m.toNat * 256 + data.toNat))

/-- `s` after `receive_fault(dor, fe, pe)` (R118). -/
def receiveFaulted (dor fe pe : Bool) (s : State) : State :=
  { s with
    faultCause := s.faultCause ||| BitVec.ofNat 4 (dor.toNat + 2 * fe.toNat + 4 * pe.toNat)
    status := .faulted, af := true }

/-- The bits of a command word that its operation uses (the `ignored_fields` of spec/opcode_table.json, R67). -/
def usedBits (op : Nat) : BitVec 36 :=
  if op = 6 ∨ op = 8 then 0xFFFFFFFFF#36
  else if op = 3 ∨ op = 7 then 0xF0000FFFF#36
  else if op = 0xB then 0xFFF00FFFF#36
  else 0xF00000000#36

/-- The line log of a transmission of these bytes: the first marked, the others not (R141). -/
def transmission (bytes : List Byte) : List LineEvent :=
  [.de true] ++ (bytes.take 1).map (.ch · true) ++ (bytes.drop 1).map (.ch · false) ++ [.de false]

/-- The first `n` bytes of `TXBUF`. -/
def txBytes (s : State) (n : Nat) : List Byte := (List.range n).map (readTxbuf s)

/-- A command that needs `en = 1` (R150). -/
abbrev needsInit (i : Instr) : Prop :=
  i.agent = .host ∧ i ≠ .nop ∧ i ≠ .busInit ∧ i ≠ .busStatus ∧ i ≠ .reservedD ∧ i ≠ .reservedE ∧ i ≠ .reservedF

/-- A command that starts a transmission (R136). -/
abbrev startsSend (i : Instr) : Prop := (∃ a b n, i = .send a b n) ∨ ∃ n, i = .sendRaw n

/-- `BUS_INIT` or reset, which initialise the block (R152, R180). -/
abbrev initialises (i : Instr) : Prop := i = .busInit ∨ i = .reset

/-- One use of the ring from the rx side or from the host side (R97). -/
inductive RingUse where
  | push (b : Byte)
  | advance (n : Nat)

/-- The uses of a list, one after the other, while each succeeds. -/
def ringRun : List RingUse → State → Option State
  | [], s => some s
  | .push b :: us, s => (push b s).bind (ringRun us)
  | .advance n :: us, s => (advanceRead n s).bind (ringRun us)

/-- The same uses of a first-in first-out queue that holds `cap` bytes. -/
def fifoRun (cap : Nat) : List RingUse → List Byte → Option (List Byte)
  | [], q => some q
  | .push b :: us, q => if q.length < cap then fifoRun cap us (q ++ [b]) else none
  | .advance n :: us, q => if n ≤ q.length then fifoRun cap us (q.drop n) else none

end Sys2Proof.Claims

open Sys2Proof Sys2Proof.Machine Sys2Proof.Claims

/-! ### Words -/

/-- Words of 95_test_vectors.md, decoded at its instance. -/
def Obligations.TestVectorWordsDecode : Prop :=
  decode Params.reference (.cmd 0x000000000#36) = .nop ∧
  decode Params.reference (.cmd 0x1FFFFFFFF#36) = .busInit ∧
  decode Params.reference (.cmd 0x200000000#36) = .busStatus ∧
  decode Params.reference (.cmd 0x30000000A#36) = .currentFrame 10 ∧
  decode Params.reference (.cmd 0x400000000#36) = .packetDone ∧
  decode Params.reference (.cmd 0x500000000#36) = .skipByte ∧
  decode Params.reference (.cmd 0x601000004#36) = .send 0x01 0x00 4 ∧
  decode Params.reference (.cmd 0x700000021#36) = .sendRaw 33 ∧
  decode Params.reference (.cmd 0x802010000#36) = .encodeFrame 0x02 0x01 0 ∧
  decode Params.reference (.cmd 0x900000000#36) = .recover ∧
  decode Params.reference (.cmd 0xA00000000#36) = .occupancy ∧
  decode Params.reference (.cmd 0xBAA00001F#36) = .txbufWrite 0xAA 31 ∧
  decode Params.reference (.cmd 0xC00000000#36) = .faultCause ∧
  decode Params.reference (.cmd 0xE12345678#36) = .reservedE ∧
  decode Params.reference (.rx 0xA00#12) = .rxErrOverrun false true false 0x00 ∧
  decode Params.reference (.rx 0x455#12) = .rxErrFraming false false 0x55 ∧
  decode Params.reference (.rx 0x201#12) = .rxErrParity false 0x01 ∧
  decode Params.reference (.rx 0x101#12) = .rxAddrMatch 0x01 ∧
  decode Params.reference (.rx 0x102#12) = .rxAddrMismatch 0x02 ∧
  decode Params.reference (.rx 0x070#12) = .rxData 0x70

/-- R66 and R67: the command word `{op, a, b, n}` by its operation code, whatever its unused fields hold; the disjoint
cases of the received character; the pulses. -/
def Obligations.PortWordsDecodeByTheirFields : Prop :=
  (∀ (p : Params) (w : BitVec 36),
    let a : Byte := BitVec.ofNat 8 (w.toNat / 2 ^ 24)
    let b : Byte := BitVec.ofNat 8 (w.toNat / 2 ^ 16)
    let n : BitVec 16 := BitVec.ofNat 16 w.toNat
    (w.toNat / 2 ^ 32 = 0x0 → decode p (.cmd w) = .nop) ∧
    (w.toNat / 2 ^ 32 = 0x1 → decode p (.cmd w) = .busInit) ∧
    (w.toNat / 2 ^ 32 = 0x2 → decode p (.cmd w) = .busStatus) ∧
    (w.toNat / 2 ^ 32 = 0x3 → decode p (.cmd w) = .currentFrame n) ∧
    (w.toNat / 2 ^ 32 = 0x4 → decode p (.cmd w) = .packetDone) ∧
    (w.toNat / 2 ^ 32 = 0x5 → decode p (.cmd w) = .skipByte) ∧
    (w.toNat / 2 ^ 32 = 0x6 → decode p (.cmd w) = .send a b n) ∧
    (w.toNat / 2 ^ 32 = 0x7 → decode p (.cmd w) = .sendRaw n) ∧
    (w.toNat / 2 ^ 32 = 0x8 → decode p (.cmd w) = .encodeFrame a b n) ∧
    (w.toNat / 2 ^ 32 = 0x9 → decode p (.cmd w) = .recover) ∧
    (w.toNat / 2 ^ 32 = 0xA → decode p (.cmd w) = .occupancy) ∧
    (w.toNat / 2 ^ 32 = 0xB → decode p (.cmd w) = .txbufWrite a n) ∧
    (w.toNat / 2 ^ 32 = 0xC → decode p (.cmd w) = .faultCause) ∧
    (w.toNat / 2 ^ 32 = 0xD → decode p (.cmd w) = .reservedD) ∧
    (w.toNat / 2 ^ 32 = 0xE → decode p (.cmd w) = .reservedE) ∧
    (w.toNat / 2 ^ 32 = 0xF → decode p (.cmd w) = .reservedF)) ∧
  (∀ (p : Params) (fe pe m : Bool) (data : Byte),
    decode p (rxStimulus true fe pe m data) = .rxErrOverrun fe pe m data ∧
    decode p (rxStimulus false true pe m data) = .rxErrFraming pe m data ∧
    decode p (rxStimulus false false true m data) = .rxErrParity m data ∧
    ((data = p.ownAddr ∨ data ∈ p.groupAddrs) →
      decode p (rxStimulus false false false true data) = .rxAddrMatch data) ∧
    (¬ (data = p.ownAddr ∨ data ∈ p.groupAddrs) →
      decode p (rxStimulus false false false true data) = .rxAddrMismatch data) ∧
    decode p (rxStimulus false false false false data) = .rxData data) ∧
  (∀ p : Params, decode p .txEvent = .txEvent ∧ decode p .reset = .reset)

/-- Decoding the word of a well-formed operation gives it back, every operand at every value. -/
def Obligations.DecodeInvertsEncode : Prop :=
  ∀ (p : Params) (i : Instr), i.wf p = true → decode p (encode i) = i

/-- The other direction: every port word decodes to a well-formed operation, whose word agrees with it on every bit
the operation uses (all bits of a received character). The ignored bits are written 0: the encoder's choice. -/
def Obligations.ReencodingKeepsEveryUsedBit : Prop :=
  ∀ p : Params,
    (∀ w : PortWord, (decode p w).wf p = true) ∧
    (∀ w : BitVec 36, encode (decode p (.cmd w)) = .cmd (w &&& usedBits (w.toNat / 2 ^ 32))) ∧
    (∀ w : BitVec 12, encode (decode p (.rx w)) = .rx w)

/-! ### Steps -/

/-- A step takes the next stimulus and carries out the operation it decodes to. The other clauses are the model's
choice. With none waiting the state stays (log 4). A word placed by `withFetchWord` is the next stimulus (log 4), on the
port its number of bits selects: 40 a command, 16 a received character, 8 a pulse; the raw pulse word 1 is read as
`TX_EVENT`, although the table gives `RESET` the same word (log 8). -/
def Obligations.StepRunsTheDecodedStimulus : Prop :=
  (∀ (s : State) (w : PortWord) (rest : List PortWord), s.inputs = w :: rest →
    step s = exec (decode s.params w) { s with inputs := rest }) ∧
  (∀ s : State, s.inputs = [] → step s = .next s) ∧
  (∀ (s : State) (w : BitVec 36), step (s.withFetchWord 40 w.toNat) = exec (decode s.params (.cmd w)) s) ∧
  (∀ (s : State) (w : BitVec 12), step (s.withFetchWord 16 w.toNat) = exec (decode s.params (.rx w)) s) ∧
  (∀ s : State, step (s.withFetchWord 8 1) = exec .txEvent s)

/-- A run of steps carries out the waiting stimuli one after the other, each on the state the one before left, and
consumes exactly those: what the statements say of lists of operations holds of runs. -/
def Obligations.RunsTakeTheStimuliInOrder : Prop :=
  ∀ (ws rest : List PortWord) (s t : State),
    execAll (ws.map (decode s.params)) { s with inputs := rest } = .next t →
    Host.Core.run core ws.length { s with inputs := ws ++ rest } = .next t ∧ t.inputs = rest

/-- No operation changes the parameters (R4) or the stimuli still to come (R11). -/
def Obligations.ParametersAndStimuliAreKept : Prop :=
  ∀ (i : Instr) (s t : State), exec i s = .next t → t.params = s.params ∧ t.inputs = s.inputs

/-! ### The invariant -/

/-- The invariant holds right after reset, for an instance with any parameters in range. -/
def Obligations.ResetSatisfiesTheInvariant : Prop :=
  ∀ p : Params, p.WF → BlockInv { State.reset with params := p }

/-- Every step keeps the invariant: cursors in range and occupancy at most `CAP`, memories in canonical form, every
byte in the window written, the status what the detector says, a cause recorded exactly in `Faulted`, the filter armed
behind a complete frame, `de = tx_busy`, the transmit cursors in range, the registers at reset values until enabled. -/
def Obligations.StepKeepsTheInvariant : Prop :=
  ∀ s t : State, BlockInv s → step s = .next t → BlockInv t

/-- From a state with the invariant every step goes on: no fault, no refusal, so no rule calls a micro-operation
outside its precondition. -/
def Obligations.NoStepStops : Prop :=
  ∀ s : State, BlockInv s → ∃ t, step s = .next t

/-- Outside the invariant the model stops by name (log 6): a frame read or retirement beyond the buffered bytes, a
fetch beyond `TXBUF`; a ring holding more than `CAP` bytes overflows (log 7). No run from reset gets there. -/
def Obligations.ImpossibleCallsStopByName : Prop :=
  (∀ (s : State) (n : BitVec 16), s.en = true → s.status = .completeFrame →
    buffered s < 6 ∨ (buffered s ≤ n.toNat ∧ n.toNat < frameLength s) →
    exec (.currentFrame n) s = .refused .peekOutsideWindow) ∧
  (∀ s : State, s.en = true → s.status = .completeFrame → buffered s < 6 →
    exec .packetDone s = .refused .peekOutsideWindow) ∧
  (∀ s : State, s.en = true → s.status = .completeFrame → 6 ≤ buffered s → buffered s < frameLength s →
    exec .packetDone s = .refused .advancePastWrite) ∧
  (∀ s : State, s.en = true → s.txBusy = true → s.txPos < s.txLen → 6 + s.params.maxPayload ≤ s.txPos →
    exec .txEvent s = .fault (.txbufNoSuchAddress s.txPos)) ∧
  (∀ (s : State) (d : Byte), s.en = true → s.status ≠ .faulted → s.af = false → 2 ^ s.params.k < buffered s →
    exec (.rxData d) s = .next { silent s with
      faultCause := s.faultCause ||| 0b1000#4, status := .faulted, af := true })

/-! ### System operations -/

/-- R151. -/
def Obligations.NopAnswersOk : Prop :=
  ∀ s : State, exec .nop s = .next (answered 0 0 s)

/-- R152: every assignment of `BUS_INIT`; `DE(0)` is logged if `de` was 1; both memories are kept. -/
def Obligations.BusInitInitialises : Prop :=
  ∀ s : State, exec .busInit s = .next { answered 0 0 s with
    en := true, wr := 0, rd := 0, status := .idle, faultCause := 0#4, af := true, txBusy := false, txPos := 0
    txLen := 0, de := false, deOe := true
    lineLog := if s.de then s.lineLog ++ [.de false] else s.lineLog }

/-- R180: every assignment of hardware reset; `RING` and `TXBUF` are kept, and so is every other register. (What it
adds to the line log, an observation, is `ResetLogsTheFallOfDe`.) -/
def Obligations.ResetAssigns : Prop :=
  ∀ s : State, ∃ log, exec .reset s = .next { silent s with
    en := false, wr := 0, rd := 0, status := .idle, faultCause := 0#4, af := true, txBusy := false, txPos := 0
    txLen := 0, de := false, deOe := false, lineLog := log }

/-- Reset during a send appends `DE(0)` to the line log, and nothing otherwise. That it does is the model's reading of
the line log (log 12). -/
def Obligations.ResetLogsTheFallOfDe : Prop :=
  ∀ s : State, ∃ t, exec .reset s = .next t ∧ t.lineLog = if s.de then s.lineLog ++ [.de false] else s.lineLog

/-- R181: the machine right after reset, every register the rule names. The empty memories and outputs and the
parameters are the model's (logs 1 to 5). -/
def Obligations.ResetStateIsTheSpecs : Prop :=
  State.reset.en = false ∧ buffered State.reset = 0 ∧ State.reset.wr = 0 ∧ State.reset.rd = 0 ∧
  State.reset.status = .idle ∧ State.reset.faultCause = 0#4 ∧ State.reset.af = true ∧
  State.reset.txBusy = false ∧ State.reset.txPos = 0 ∧ State.reset.txLen = 0 ∧
  State.reset.de = false ∧ State.reset.deOe = false

/-- R154: refused outside `Faulted`; otherwise the ring is flushed through the read cursor, the causes are cleared, the
filter is armed and the status is `Idle`. `wr`, `RING` and the transmit engine are not touched. -/
def Obligations.RecoverFlushesAndResumes : Prop :=
  ∀ s : State,
    (s.en = false → exec .recover s = .next (answered 1 0 s)) ∧
    (s.en = true → s.status ≠ .faulted → exec .recover s = .next (answered 2 0 s)) ∧
    (s.en = true → s.status = .faulted → exec .recover s = .next { answered 0 0 s with
      rd := s.wr % 2 ^ (s.params.k + 1), faultCause := 0#4, af := true, status := .idle })

/-- R156: bit 0 `OVERRUN`, 1 `FRAMING`, 2 `PARITY`, 3 `RING_OVERFLOW`; reading does not clear. -/
def Obligations.FaultCauseReadsTheFlags : Prop :=
  ∀ s : State,
    (s.en = false → exec .faultCause s = .next (answered 1 0 s)) ∧
    (s.en = true → exec .faultCause s = .next (answered 0 s.faultCause.toNat s))

/-- R157: `ERR_BADCMD` with no effect, whatever `en` is. -/
def Obligations.ReservedCodesAnswerBadCommand : Prop :=
  ∀ (s : State) (i : Instr), i = .reservedD ∨ i = .reservedE ∨ i = .reservedF →
    exec i s = .next (answered 6 0 s)

/-! ### Receive side, host commands -/

/-- R104: `Idle` 0, `CompleteFrame` 1, `HeaderChecksumMismatch` 2, `Faulted` 3, also while `en = 0`; the same value is
on `status_o`. -/
def Obligations.BusStatusReadsTheStatus : Prop :=
  ∀ s : State,
    exec .busStatus s = .next (answered 0 (match s.status with
      | .idle => 0 | .completeFrame => 1 | .headerChecksumMismatch => 2 | .faulted => 3) s) ∧
    exec .busStatus s = .next (answered 0 s.statusO.toNat s)

/-- R96, for `K` in the range of R4, where the value fits the 17 data bits. -/
def Obligations.OccupancyReadsTheCursorDifference : Prop :=
  ∀ s : State,
    (s.en = false → exec .occupancy s = .next (answered 1 0 s)) ∧
    (s.en = true → s.params.k ≤ 16 → exec .occupancy s = .next (answered 0 (buffered s) s))

/-- R101: the three steps, on the bytes at the read cursor; the payload, the destination and later bytes play no
part. -/
def Obligations.DetectorFollowsItsThreeSteps : Prop :=
  ∀ s : State, Detects s (detect s)

/-- R105: byte `n` of the complete frame, read at `RING[(rd + n) mod CAP]`; nothing is consumed. The premise of the
reading clauses is the invariant of R17 (a state that breaks it is refused, log 6). -/
def Obligations.CurrentFrameReadsTheFrame : Prop :=
  ∀ (s : State) (n : BitVec 16),
    (s.en = false → exec (.currentFrame n) s = .next (answered 1 0 s)) ∧
    (s.en = true → s.status ≠ .completeFrame → exec (.currentFrame n) s = .next (answered 2 0 s)) ∧
    (s.en = true → s.status = .completeFrame → StatusCurrent s → frameLength s ≤ n.toNat →
      exec (.currentFrame n) s = .next (answered 5 0 s)) ∧
    (s.en = true → s.status = .completeFrame → StatusCurrent s → n.toNat < frameLength s →
      exec (.currentFrame n) s = .next (answered 0 (frameByte s n.toNat).toNat s))

/-- R106: exactly the frame's `6 + length` bytes are retired, then the detector runs. -/
def Obligations.PacketDoneRetiresTheFrame : Prop :=
  ∀ s : State,
    (s.en = false → exec .packetDone s = .next (answered 1 0 s)) ∧
    (s.en = true → s.status ≠ .completeFrame → exec .packetDone s = .next (answered 2 0 s)) ∧
    (s.en = true → s.status = .completeFrame → StatusCurrent s →
      ∃ t, exec .packetDone s = .next t ∧
        Reevaluated { answered 0 0 s with rd := (s.rd + frameLength s) % 2 ^ (s.params.k + 1) } t)

/-- R107: exactly one byte is discarded, then the detector runs; refused in `Faulted` and on an empty ring. -/
def Obligations.SkipByteRetiresOneByte : Prop :=
  ∀ s : State,
    (s.en = false → exec .skipByte s = .next (answered 1 0 s)) ∧
    (s.en = true → s.status = .faulted ∨ buffered s = 0 → exec .skipByte s = .next (answered 2 0 s)) ∧
    (s.en = true → s.status ≠ .faulted → buffered s ≠ 0 →
      ∃ t, exec .skipByte s = .next t ∧
        Reevaluated { answered 0 0 s with rd := (s.rd + 1) % 2 ^ (s.params.k + 1) } t)

/-! ### Received characters -/

/-- R118: any error flag, in every status and either filter mode: the causes are OR-ed in, `Faulted`, the filter armed,
the character discarded. While `en = 0` the event is ignored. -/
def Obligations.FlaggedCharactersFault : Prop :=
  ∀ (s : State) (fe pe m : Bool) (data : Byte),
    (s.en = false →
      exec (.rxErrOverrun fe pe m data) s = .next (silent s) ∧
      exec (.rxErrFraming pe m data) s = .next (silent s) ∧
      exec (.rxErrParity m data) s = .next (silent s)) ∧
    (s.en = true →
      exec (.rxErrOverrun fe pe m data) s = .next (receiveFaulted true fe pe (silent s)) ∧
      exec (.rxErrFraming pe m data) s = .next (receiveFaulted false true pe (silent s)) ∧
      exec (.rxErrParity m data) s = .next (receiveFaulted false false true (silent s)))

/-- R119: the filter is disarmed and the address character itself is pushed. Ignored while `en = 0`, dropped in
`Faulted` (R128). -/
def Obligations.MatchingAddressIsKept : Prop :=
  ∀ (s : State) (data : Byte),
    (s.en = false ∨ s.status = .faulted → exec (.rxAddrMatch data) s = .next (silent s)) ∧
    (s.en = true → s.status ≠ .faulted →
      ∃ t, exec (.rxAddrMatch data) s = .next t ∧ AcceptsAndPushes data { silent s with af := false } t)

/-- R120: the filter is armed, the character dropped, the detector not run. -/
def Obligations.ForeignAddressArmsTheFilter : Prop :=
  ∀ (s : State) (data : Byte),
    (s.en = false ∨ s.status = .faulted → exec (.rxAddrMismatch data) s = .next (silent s)) ∧
    (s.en = true → s.status ≠ .faulted → exec (.rxAddrMismatch data) s = .next { silent s with af := true })

/-- R122 (with the push and overflow policy of R121): dropped without a trace while the filter is armed, else
pushed. -/
def Obligations.DataCharacterIsFilteredOrPushed : Prop :=
  ∀ (s : State) (data : Byte),
    (s.en = false ∨ s.status = .faulted ∨ s.af = true → exec (.rxData data) s = .next (silent s)) ∧
    (s.en = true → s.status ≠ .faulted → s.af = false →
      ∃ t, exec (.rxData data) s = .next t ∧ AcceptsAndPushes data (silent s) t)

/-- R116, over the received word itself: the order of the tests is `en`, error flags, `Faulted`, marker; a marked
character goes through the address comparison in either filter mode (R117). -/
def Obligations.ReceivedCharacterIsDispatched : Prop :=
  ∀ (s : State) (dor fe pe m : Bool) (data : Byte) (rest : List PortWord),
    s.inputs = rxStimulus dor fe pe m data :: rest →
    let s' := silent { s with inputs := rest }
    let flagged := (dor || fe || pe) = true
    let accepted := data = s.params.ownAddr ∨ data ∈ s.params.groupAddrs
    (s.en = false → step s = .next s') ∧
    (s.en = true → flagged → step s = .next (receiveFaulted dor fe pe s')) ∧
    (s.en = true → ¬ flagged → s.status = .faulted → step s = .next s') ∧
    (s.en = true → ¬ flagged → s.status ≠ .faulted → m = true → accepted →
      ∃ t, step s = .next t ∧ AcceptsAndPushes data { s' with af := false } t) ∧
    (s.en = true → ¬ flagged → s.status ≠ .faulted → m = true → ¬ accepted →
      step s = .next { s' with af := true }) ∧
    (s.en = true → ¬ flagged → s.status ≠ .faulted → m = false → s.af = false →
      ∃ t, step s = .next t ∧ AcceptsAndPushes data s' t) ∧
    (s.en = true → ¬ flagged → s.status ≠ .faulted → m = false → s.af = true → step s = .next s')

/-- R123. -/
def Obligations.AcceptComparesWithOwnAndGroup : Prop :=
  ∀ (p : Params) (a : Byte), accept p a = true ↔ a = p.ownAddr ∨ a ∈ p.groupAddrs

/-! ### Transmit side -/

/-- R131: one byte of `TXBUF`, every other byte of both memories unchanged; the checks in their order. -/
def Obligations.TxbufWriteStoresOneByte : Prop :=
  ∀ (s : State) (a : Byte) (n : BitVec 16),
    (s.en = false → exec (.txbufWrite a n) s = .next (answered 1 0 s)) ∧
    (s.en = true → s.txBusy = true → exec (.txbufWrite a n) s = .next (answered 3 0 s)) ∧
    (s.en = true → s.txBusy = false → 6 + s.params.maxPayload ≤ n.toNat →
      exec (.txbufWrite a n) s = .next (answered 5 0 s)) ∧
    (s.en = true → s.txBusy = false → n.toNat < 6 + s.params.maxPayload →
      ∃ m, exec (.txbufWrite a n) s = .next { answered 0 0 s with txbuf := m } ∧
        ∀ i, readTxbuf { s with txbuf := m } i = if i = n.toNat then a else readTxbuf s i)

/-- R84: the header of `(a, b, n)` into `TXBUF[0..5]`; `TXBUF[6..]` is not touched and nothing is emitted. -/
def Obligations.EncodeFrameWritesTheHeader : Prop :=
  ∀ (s : State) (a b : Byte) (n : BitVec 16),
    (s.en = false → exec (.encodeFrame a b n) s = .next (answered 1 0 s)) ∧
    (s.en = true → s.txBusy = true → exec (.encodeFrame a b n) s = .next (answered 3 0 s)) ∧
    (s.en = true → s.txBusy = false → s.params.maxPayload < n.toNat →
      exec (.encodeFrame a b n) s = .next (answered 4 0 s)) ∧
    (s.en = true → s.txBusy = false → n.toNat ≤ s.params.maxPayload →
      ∃ m, exec (.encodeFrame a b n) s = .next { answered 0 0 s with txbuf := m } ∧
        ∀ i, readTxbuf { s with txbuf := m } i = (header a b n.toNat)[i]?.getD (readTxbuf s i))

/-- R134 with `start` (R136): the header is written, `de` is asserted before the marked first byte is emitted, and
`6 + n` bytes are in flight. -/
def Obligations.SendStartsAFrame : Prop :=
  ∀ (s : State) (a b : Byte) (n : BitVec 16),
    (s.en = false → exec (.send a b n) s = .next (answered 1 0 s)) ∧
    (s.en = true → s.txBusy = true → exec (.send a b n) s = .next (answered 3 0 s)) ∧
    (s.en = true → s.txBusy = false → s.params.maxPayload < n.toNat →
      exec (.send a b n) s = .next (answered 4 0 s)) ∧
    (s.en = true → s.txBusy = false → n.toNat ≤ s.params.maxPayload →
      ∃ m, exec (.send a b n) s = .next { answered 0 0 s with
            txbuf := m, txLen := 6 + n.toNat, txPos := 1, txBusy := true, de := true
            tx := some (character true a)
            lineLog := s.lineLog ++ (if s.de then [] else [.de true]) ++ [.ch a true] } ∧
        ∀ i, readTxbuf { s with txbuf := m } i = (header a b n.toNat)[i]?.getD (readTxbuf s i))

/-- R137 with `start` (R136): `n` bytes of `TXBUF` as they are; the first is emitted marked, whatever it holds (a byte
nothing has written is a free value, log 3). -/
def Obligations.SendRawStartsTheBuffer : Prop :=
  ∀ (s : State) (n : BitVec 16),
    (s.en = false → exec (.sendRaw n) s = .next (answered 1 0 s)) ∧
    (s.en = true → s.txBusy = true → exec (.sendRaw n) s = .next (answered 3 0 s)) ∧
    (s.en = true → s.txBusy = false → n.toNat = 0 ∨ 6 + s.params.maxPayload < n.toNat →
      exec (.sendRaw n) s = .next (answered 5 0 s)) ∧
    (s.en = true → s.txBusy = false → 1 ≤ n.toNat → n.toNat ≤ 6 + s.params.maxPayload →
      exec (.sendRaw n) s = .next { answered 0 0 s with
        txLen := n.toNat, txPos := 1, txBusy := true, de := true
        tx := some (character true (readTxbuf s 0))
        lineLog := s.lineLog ++ (if s.de then [] else [.de true]) ++ [.ch (readTxbuf s 0) true] })

/-- R138 to R140: ignored while disabled or idle; the next byte is emitted unmarked; the exhausted frame ends with `de`
de-asserted. The premise of the emitting clause is the range of `tx_pos` (R15). -/
def Obligations.TxEventEmitsOrFinishes : Prop :=
  ∀ s : State,
    (s.en = false ∨ s.txBusy = false → exec .txEvent s = .next (silent s)) ∧
    (s.en = true → s.txBusy = true → s.txPos < s.txLen → s.txPos < 6 + s.params.maxPayload →
      exec .txEvent s = .next { silent s with
        tx := some (character false (readTxbuf s s.txPos)), txPos := s.txPos + 1
        lineLog := s.lineLog ++ [.ch (readTxbuf s s.txPos) false] }) ∧
    (s.en = true → s.txBusy = true → s.txLen ≤ s.txPos →
      exec .txEvent s = .next { silent s with
        de := false, txBusy := false
        lineLog := if s.de then s.lineLog ++ [.de false] else s.lineLog })

/-- A send of the first `n` bytes of `TXBUF` shows on the line as `de` up, the bytes with the first one marked, `de`
down; it takes the command and `n` transmit events, and leaves both memories and the receive side as they were. -/
def Obligations.SendRawTransmitsTheBuffer : Prop :=
  ∀ (s : State) (n : BitVec 16), s.en = true → s.txBusy = false → s.de = false →
    1 ≤ n.toNat → n.toNat ≤ 6 + s.params.maxPayload →
    execAll (.sendRaw n :: List.replicate n.toNat .txEvent) s = .next { silent s with
      txPos := n.toNat, txLen := n.toNat
      lineLog := s.lineLog ++ transmission (txBytes s n.toNat) }

/-- The pseudo-operation `send(destination, source, payload)` (R71), carried out and paced to its end, puts the
encoded frame on the line: `de` up, the frame of `encode_frame` with its first byte marked, `de` down. -/
def Obligations.SendFrameTransmitsTheEncodedFrame : Prop :=
  ∀ (s : State) (d src : Byte) (payload f : List Byte), s.params.WF → s.en = true → s.txBusy = false → s.de = false →
    encodedFrame s.params d src payload = some f →
    ∃ m, execAll (sendFrame d src payload ++ List.replicate f.length .txEvent) s = .next { silent s with
        txbuf := m, txPos := f.length, txLen := f.length
        lineLog := s.lineLog ++ transmission f } ∧
      txBytes { s with txbuf := m } f.length = f

/-- While a send is in flight nothing but a transmit event, `BUS_INIT` or reset touches the transmit buffer, its
cursors, `de` or the line. -/
def Obligations.FrameInFlightIsNotTouched : Prop :=
  ∀ (i : Instr) (s t : State), s.txBusy = true → exec i s = .next t →
    i ≠ .txEvent → i ≠ .busInit → i ≠ .reset →
    (∀ j, readTxbuf t j = readTxbuf s j) ∧ t.txbuf = s.txbuf ∧ t.txPos = s.txPos ∧ t.txLen = s.txLen ∧
    t.txBusy = true ∧ t.de = s.de ∧ t.lineLog = s.lineLog ∧ t.tx = none

/-! ### Whole-machine rules -/

/-- Every command answers exactly one word, with a code of R160 and no data on an error; an error changes no state and
emits nothing; a line event and reset answer none. -/
def Obligations.EveryCommandAnswersOneWord : Prop :=
  ∀ (i : Instr) (s t : State), exec i s = .next t →
    (i.agent = .host → ∃ code data, code ≤ 6 ∧ data < 2 ^ 17 ∧
      t.rsp = some (BitVec.ofNat 21 (code * 2 ^ 17 + data)) ∧ (code ≠ 0 → t = answered code 0 s)) ∧
    (i.agent ≠ .host → t.rsp = none)

/-- R161: before the first `BUS_INIT` the commands that need it are refused and line events are ignored. -/
def Obligations.DisabledBlockRefusesAndIgnores : Prop :=
  ∀ (i : Instr) (s : State), s.en = false →
    (needsInit i → exec i s = .next (answered 1 0 s)) ∧
    (i.agent = .rxLine ∨ i.agent = .txLine → exec i s = .next (silent s))

/-- `en` is set by `BUS_INIT` only and cleared by reset only. -/
def Obligations.EnableChangesOnlyByInitAndReset : Prop :=
  ∀ (i : Instr) (s t : State), exec i s = .next t →
    (t.en = true → s.en = false → i = .busInit) ∧ (t.en = false → s.en = true → i = .reset)

/-- Each element of the state of R10 changes by its own operations only (R170). `RING` and `wr` change by an accepted
address or a data character, `rd` by the three retiring commands, `TXBUF` by its three commands, `tx_len` by the start
of a send, the other transmit registers by that and by `TX_EVENT`, which starts none, `de_oe` and `en` by `BUS_INIT` and
reset. Of the three shared elements, `status` and `af` change by a received character or a retiring command; a received
character only sets causes, the host clears all of them. `BUS_INIT` and reset may change every element but the two
memories. No operation changes a `RING` byte inside the window of unretired bytes. -/
def Obligations.EachPartHasItsOwnWriters : Prop :=
  ∀ (i : Instr) (s t : State), exec i s = .next t →
    ((∃ j, readRing t j ≠ readRing s j) → (∃ d, i = .rxAddrMatch d) ∨ ∃ d, i = .rxData d) ∧
    (t.wr ≠ s.wr → (∃ d, i = .rxAddrMatch d) ∨ (∃ d, i = .rxData d) ∨ initialises i) ∧
    (t.rd ≠ s.rd → i = .packetDone ∨ i = .skipByte ∨ i = .recover ∨ initialises i) ∧
    ((∃ j, readTxbuf t j ≠ readTxbuf s j) →
      (∃ a n, i = .txbufWrite a n) ∨ (∃ a b n, i = .encodeFrame a b n) ∨ ∃ a b n, i = .send a b n) ∧
    (t.txPos ≠ s.txPos → startsSend i ∨ i = .txEvent ∨ initialises i) ∧
    (t.txLen ≠ s.txLen → startsSend i ∨ initialises i) ∧
    (t.txBusy ≠ s.txBusy → if t.txBusy then startsSend i else i = .txEvent ∨ initialises i) ∧
    (t.de ≠ s.de → if t.de then startsSend i else i = .txEvent ∨ initialises i) ∧
    (t.deOe ≠ s.deOe → if t.deOe then i = .busInit else i = .reset) ∧
    (t.en ≠ s.en → if t.en then i = .busInit else i = .reset) ∧
    (t.status ≠ s.status ∨ t.af ≠ s.af →
      i.agent = .rxLine ∨ i = .packetDone ∨ i = .skipByte ∨ i = .recover ∨ initialises i) ∧
    (t.faultCause ≠ s.faultCause → (i.agent = .rxLine ∧ t.faultCause &&& s.faultCause = s.faultCause) ∨
      (t.faultCause = 0#4 ∧ (i = .recover ∨ initialises i))) ∧
    (∀ j < buffered s, readRing t ((s.rd + j) % 2 ^ s.params.k) = readRing s ((s.rd + j) % 2 ^ s.params.k))

/-- The fault state is entered by a received character only, and left by `RECOVER`, `BUS_INIT` and reset only. -/
def Obligations.FaultStateEntryAndExit : Prop :=
  ∀ (i : Instr) (s t : State), exec i s = .next t →
    (s.status ≠ .faulted → t.status = .faulted → i.agent = .rxLine) ∧
    (s.status = .faulted → t.status ≠ .faulted → i = .recover ∨ i = .busInit ∨ i = .reset) ∧
    (s.status = .faulted → t.faultCause &&& s.faultCause ≠ s.faultCause →
      i = .recover ∨ i = .busInit ∨ i = .reset)

/-- The filter is disarmed by an accepted address character only. -/
def Obligations.FilterIsDisarmedOnlyByAMatch : Prop :=
  ∀ (i : Instr) (s t : State), exec i s = .next t → s.af = true → t.af = false → ∃ d, i = .rxAddrMatch d

/-- `CompleteFrame` and `HeaderChecksumMismatch` never change to another status but `Faulted` without a host
command. -/
def Obligations.LineEventsKeepAReportedStatus : Prop :=
  ∀ (i : Instr) (s t : State), BlockInv s → i.agent = .rxLine ∨ i.agent = .txLine → exec i s = .next t →
    s.status = .completeFrame ∨ s.status = .headerChecksumMismatch → t.status = s.status ∨ t.status = .faulted

/-- A pending frame reads the same however many line events intervene, as long as none of them faults: every
`CURRENT_FRAME n` answers the same word. -/
def Obligations.PendingFrameReadsTheSame : Prop :=
  ∀ (is : List Instr) (s t : State), BlockInv s → s.en = true → s.status = .completeFrame →
    (∀ i ∈ is, i.agent = .rxLine ∨ i.agent = .txLine) → execAll is s = .next t → t.status ≠ .faulted →
    ∀ n : BitVec 16, ∃ u v,
      exec (.currentFrame n) s = .next u ∧ exec (.currentFrame n) t = .next v ∧ v.rsp = u.rsp

/-- A received character and a transmit event may be taken in either order: the states agree but for what the last of
them put out. -/
def Obligations.LineEventsCommute : Prop :=
  ∀ (i : Instr) (s t u : State), i.agent = .rxLine →
    execAll [i, .txEvent] s = .next t → execAll [.txEvent, i] s = .next u → silent t = silent u

/-! ### Frame codec -/

/-- R81. -/
def Obligations.HeaderChecksumIsTheSum : Prop :=
  ∀ d s p lh ll : Byte,
    (headerChecksum d s p lh ll).toNat = (d.toNat + s.toNat + p.toNat + lh.toNat + ll.toNat) % 256

/-- R82: the header, then the payload; `Oversize` beyond `MAX_PAYLOAD`. -/
def Obligations.EncodeFrameBuildsTheFrame : Prop :=
  ∀ (p : Params) (d s : Byte) (payload : List Byte), p.WF →
    (payload.length ≤ p.maxPayload → encodedFrame p d s payload = some (header d s payload.length ++ payload)) ∧
    (p.maxPayload < payload.length → encodedFrame p d s payload = none)

/-- An encoded frame validates and gives its fields back, whatever bytes follow it. -/
def Obligations.EncodedFramesValidate : Prop :=
  ∀ (p : Params) (d s : Byte) (payload f rest : List Byte), encodedFrame p d s payload = some f →
    validateHeader (f ++ rest) = .valid ⟨d, s, 0xFF#8, payload.length⟩ ∧ f.length = 6 + payload.length ∧
    f.drop 6 = payload

/-- Flipping any one bit of the six header bytes of an encoded frame is detected, byte 2 included. -/
def Obligations.SingleBitErrorsAreDetected : Prop :=
  ∀ (p : Params) (d s : Byte) (payload f : List Byte) (i bit : Nat) (hi : i < f.length),
    encodedFrame p d s payload = some f → i < 6 → bit < 8 →
    validateHeader (f.set i (f[i] ^^^ BitVec.twoPow 8 bit)) = .mismatch

/-! ### The ring and the detector over runs -/

/-- The ring is a first-in first-out queue of `CAP` bytes: any interleaving of pushes and retirements goes through on
the ring exactly when it does on the queue, and the bytes peeked afterwards are the queue's. -/
def Obligations.RingIsAFifo : Prop :=
  ∀ (us : List RingUse) (s : State),
    (ringRun us s).map (fun t => peekWindow t 0 (buffered t)) =
      (fifoRun (2 ^ s.params.k) us ((List.range (buffered s)).map (frameByte s))).map some

/-- Receiving the characters of an encoded frame addressed to this node, into an empty ring in status `Idle`, ends in
`CompleteFrame` with the filter armed and exactly the frame's bytes buffered. `RING` reads as before outside the
indices the frame was written to, `(wr + j) mod CAP`, and nothing else has changed. -/
def Obligations.EncodedFrameIsReceived : Prop :=
  ∀ (s : State) (d src : Byte) (payload f : List Byte), BlockInv s → s.en = true → s.status = .idle →
    buffered s = 0 → accept s.params d = true → encodedFrame s.params d src payload = some f →
    ∃ m, execAll (frameCharacters s.params f) s = .next { silent s with
        ring := m, wr := (s.wr + f.length) % 2 ^ (s.params.k + 1), status := .completeFrame, af := true } ∧
      (List.range f.length).map (frameByte { s with ring := m }) = f ∧
      ∀ i, (∀ j < f.length, i ≠ (s.wr + j) % 2 ^ s.params.k) → readRing { s with ring := m } i = readRing s i

/-- The characters of a frame addressed to another node leave no trace but the armed filter, whatever the ring
holds. -/
def Obligations.ForeignFrameLeavesNoTrace : Prop :=
  ∀ (s : State) (d : Byte) (rest : List Byte), s.en = true → s.status ≠ .faulted → accept s.params d = false →
    execAll (frameCharacters s.params (d :: rest)) s = .next { silent s with af := true }

/-- Resynchronisation: if the window at each of the first `k` alignments fails its checksum and a complete frame stands
at the `k`-th, then `k` `SKIP_BYTE`s retire exactly `k` bytes and report that frame, and after fewer of them the status
is still `HeaderChecksumMismatch`. -/
def Obligations.SkippingResynchronises : Prop :=
  ∀ (s : State) (k : Nat), BlockInv s → s.en = true → s.status = .headerChecksumMismatch → k ≤ buffered s →
    (∀ j < k, 6 ≤ buffered s - j ∧ ¬ headerSumHolds { s with rd := s.rd + j }) →
    6 ≤ buffered s - k → headerSumHolds { s with rd := s.rd + k } →
    frameLength { s with rd := s.rd + k } ≤ buffered s - k →
    (∀ j < k, ∃ t, execAll (List.replicate j .skipByte) s = .next t ∧ t.status = .headerChecksumMismatch) ∧
    ∃ t, execAll (List.replicate k .skipByte) s = .next t ∧ t.status = .completeFrame ∧ t.af = true ∧
      t.rd = (s.rd + k) % 2 ^ (s.params.k + 1) ∧ t.wr = s.wr ∧ t.ring = s.ring

/-- A valid header that promises more than the ring can hold never completes: whatever is received behind it, the
status stays `Idle` until the block faults. -/
def Obligations.OversizedHeaderNeverCompletes : Prop :=
  ∀ (is : List Instr) (s t : State), BlockInv s → s.status = .idle → 6 ≤ buffered s → headerSumHolds s →
    2 ^ s.params.k < frameLength s → (∀ i ∈ is, i.agent = .rxLine ∨ i.agent = .txLine) →
    execAll is s = .next t → t.status = .idle ∨ t.status = .faulted

/-- A frame that starts while a complete frame is pending is lost: its address byte is appended, the filter is armed
again in the same step, and its remaining characters are dropped. -/
def Obligations.FrameBehindAPendingFrameIsLost : Prop :=
  ∀ (s : State) (d : Byte) (rest : List Byte), BlockInv s → s.en = true → s.status = .completeFrame →
    accept s.params d = true → buffered s < 2 ^ s.params.k →
    ∃ m, execAll (frameCharacters s.params (d :: rest)) s = .next { silent s with
        ring := m, wr := (s.wr + 1) % 2 ^ (s.params.k + 1) } ∧
      ∀ i, readRing { s with ring := m } i = if i = s.wr % 2 ^ s.params.k then d else readRing s i
end

