-- ==== Sys2Proof/Laws/Codec.lean ====
section
/-! SUPPORT. The laws of the frame codec (40_frame_codec.md). -/

namespace Sys2Proof.Machine

/-- The checksum is the wrap-around sum of the five bytes (R62, R81). -/
theorem headerChecksum_eq_add (d s p hi lo : Byte) : headerChecksum d s p hi lo = d + s + p + hi + lo := by
  apply BitVec.eq_of_toNat_eq
  simp [headerChecksum]

/-- The two length bytes give the length back (R42, R62). -/
theorem lengthOf_hi_lo {n : Nat} (h : n < 65536) : lengthOf (lengthHi n) (lengthLo n) = n := by
  simp only [lengthOf, lengthHi, lengthLo, BitVec.toNat_ofNat]; omega

@[simp] theorem headerBytes_length (a b : Byte) (n : Nat) : (headerBytes a b n).length = 6 := rfl

/-- A header this node writes validates, with its own fields, whatever follows it (R85). -/
theorem validateHeader_headerBytes (a b : Byte) {n : Nat} (h : n < 65536) (rest : List Byte) :
    validateHeader (headerBytes a b n ++ rest) = .valid ⟨a, b, pchk, n⟩ := by
  simp [headerBytes, validateHeader, lengthOf_hi_lo h]

/-- Only the first six bytes matter (R83). -/
theorem validateHeader_take {h : List Byte} (hl : 6 ≤ h.length) (rest : List Byte) :
    validateHeader (h ++ rest) = validateHeader h := by
  match h, hl with
  | d :: s :: c :: p :: hi :: lo :: t, _ => simp [validateHeader]

theorem validateHeader_short {h : List Byte} (hl : h.length < 6) : validateHeader h = .short := by
  match h, hl with
  | [], _ => rfl
  | [_], _ => rfl
  | [_, _], _ => rfl
  | [_, _, _], _ => rfl
  | [_, _, _, _], _ => rfl
  | [_, _, _, _, _], _ => rfl

theorem validateHeader_ne_short {h : List Byte} (hl : 6 ≤ h.length) : validateHeader h ≠ .short := by
  match h, hl with
  | d :: s :: c :: p :: hi :: lo :: t, _ => simp only [validateHeader]; split_ifs <;> simp

/-- The frame length read from bytes 4 and 5 is that of the parsed header. -/
theorem frameLengthOf_valid {h : List Byte} {p : ParsedHeader} (hv : validateHeader h = .valid p) :
    frameLengthOf h = 6 + p.length := by
  match h, hv with
  | d :: s :: c :: p' :: hi :: lo :: t, hv =>
    simp only [validateHeader] at hv
    split_ifs at hv
    simp only [HeaderCheck.valid.injEq] at hv
    subst hv
    rfl

theorem frameLengthOf_take {h : List Byte} (hl : 6 ≤ h.length) : frameLengthOf (h.take 6) = frameLengthOf h := by
  match h, hl with
  | d :: s :: c :: p :: hi :: lo :: t, _ => rfl

end Sys2Proof.Machine
end

