-- ==== Sys2Proof/Laws/Memory.lean ====
section
/-! SUPPORT. The laws of the byte memories: a read after a write, and the canonical form, which every operation
keeps. -/

namespace Sys2Proof.Machine

theorem Memory.read_write_same (m : Memory) (i : Nat) (v : Byte) :
    Memory.read (Memory.write m i v) i = some v := by
  induction m with
  | nil => simp [Memory.write, Memory.read]
  | cons c rest ih =>
    obtain ⟨a, b⟩ := c
    unfold Memory.write
    split_ifs with h1 h2
    · simp [Memory.read]
    · simp [Memory.read, h2]
    · simp [Memory.read, h2, ih]

theorem Memory.read_write_other (m : Memory) {i j : Nat} (v : Byte) (h : j ≠ i) :
    Memory.read (Memory.write m i v) j = Memory.read m j := by
  induction m with
  | nil => simp [Memory.write, Memory.read, h]
  | cons c rest ih =>
    obtain ⟨a, b⟩ := c
    unfold Memory.write
    split_ifs with h1 h2
    · simp [Memory.read, h]
    · subst h2; simp [Memory.read, h]
    · simp [Memory.read, ih]

/-- A read after a write, at any index. -/
theorem Memory.read_write (m : Memory) (i j : Nat) (v : Byte) :
    Memory.read (Memory.write m i v) j = if j = i then some v else Memory.read m j := by
  split_ifs with h
  · rw [h, Memory.read_write_same]
  · exact Memory.read_write_other m v h

/-- A read after a write of consecutive bytes. -/
theorem Memory.read_writeList (m : Memory) (i j : Nat) (vs : List Byte) :
    Memory.read (Memory.writeList m i vs) j =
      if i ≤ j ∧ j < i + vs.length then vs[j - i]? else Memory.read m j := by
  induction vs generalizing m i with
  | nil => rw [if_neg (by simp only [List.length_nil]; omega)]; rfl
  | cons v vs ih =>
    rw [Memory.writeList, ih, Memory.read_write]
    simp only [List.length_cons]
    rcases Nat.lt_trichotomy j i with h | h | h
    · rw [if_neg (by omega), if_neg (by omega), if_neg (by omega)]
    · subst h
      rw [if_neg (by omega), if_pos rfl, if_pos (by simp)]; simp
    · by_cases hj : j < i + 1 + vs.length
      · rw [if_pos ⟨by omega, hj⟩, if_pos ⟨by omega, by omega⟩, show j - i = (j - (i + 1)) + 1 by omega]
        rfl
      · rw [if_neg (by omega), if_neg (by omega), if_neg (by omega)]

/-- The first address of a memory in canonical form is below every other. -/
theorem Memory.wf_cons (c : Host.Cell) (m : Memory) :
    Memory.wf (c :: m) = true ↔ (∀ d ∈ m.head?, c.1 < d.1) ∧ Memory.wf m = true := by
  cases m <;> simp [Memory.wf]

theorem Memory.head_write (m : Memory) (i : Nat) (v : Byte) :
    ∀ d ∈ (Memory.write m i v).head?, d.1 = i ∨ ∃ c ∈ m.head?, d.1 = c.1 := by
  cases m with
  | nil => simp [Memory.write]
  | cons c rest =>
    obtain ⟨a, b⟩ := c
    unfold Memory.write
    split_ifs <;> simp_all

/-- A write keeps the canonical form. -/
theorem Memory.wf_write {m : Memory} (i : Nat) (v : Byte) (h : Memory.wf m = true) :
    Memory.wf (Memory.write m i v) = true := by
  induction m with
  | nil => rfl
  | cons c rest ih =>
    obtain ⟨a, b⟩ := c
    rw [Memory.wf_cons] at h
    unfold Memory.write
    split_ifs with h1 h2
    · rw [Memory.wf_cons, Memory.wf_cons]; exact ⟨by simpa using h1, h⟩
    · rw [Memory.wf_cons]; exact h
    · rw [Memory.wf_cons]
      refine ⟨fun d hd => ?_, ih h.2⟩
      rcases Memory.head_write rest i v d hd with hi | ⟨c, hc, hdc⟩
      · show a < d.1; omega
      · rw [hdc]; exact h.1 c hc

theorem Memory.wf_writeList {m : Memory} (i : Nat) (vs : List Byte) (h : Memory.wf m = true) :
    Memory.wf (Memory.writeList m i vs) = true := by
  induction vs generalizing m i with
  | nil => exact h
  | cons v vs ih => exact ih (i + 1) (Memory.wf_write i v h)

/-- A write at an address that exists lists only addresses that exist. -/
theorem Memory.within_write {m : Memory} {size i : Nat} (v : Byte) (hi : i < size)
    (h : Memory.within size m = true) : Memory.within size (Memory.write m i v) = true := by
  induction m with
  | nil => simpa [Memory.write, Memory.within] using hi
  | cons c rest ih =>
    obtain ⟨a, b⟩ := c
    simp only [Memory.within, List.all_cons, Bool.and_eq_true, decide_eq_true_eq] at h ih ⊢
    unfold Memory.write
    split_ifs with h1 h2
    · simp [hi, h.1]; simpa using h.2
    · simp [h.1]; simpa using h.2
    · simp only [List.all_cons, Bool.and_eq_true, decide_eq_true_eq]; exact ⟨h.1, ih h.2⟩

theorem Memory.within_writeList {m : Memory} {size : Nat} (i : Nat) (vs : List Byte) (hi : i + vs.length ≤ size)
    (h : Memory.within size m = true) : Memory.within size (Memory.writeList m i vs) = true := by
  induction vs generalizing m i with
  | nil => exact h
  | cons v vs ih =>
    simp only [List.length_cons] at hi
    exact ih (i + 1) (by omega) (Memory.within_write v (by omega) h)

theorem Memory.read_lt_head {c : Host.Cell} {m : Memory} {i : Nat} (h : Memory.wf (c :: m) = true) (hi : i < c.1) :
    Memory.read (c :: m) i = none := by
  induction m generalizing c with
  | nil =>
    obtain ⟨a, b⟩ := c
    have hi' : i < a := hi
    simp [Memory.read, show i ≠ a by omega]
  | cons d rest ih =>
    have h' := (Memory.wf_cons _ _).1 h
    have hd : c.1 < d.1 := h'.1 d rfl
    obtain ⟨a, b⟩ := c
    have hi' : i < a := hi
    have : Memory.read (d :: rest) i = none := ih h'.2 (by omega)
    rw [Memory.read, if_neg (show i ≠ a by omega), this]

/-- Equal memories are equal data: two memories in canonical form that read alike are the same list. -/
theorem Memory.ext_read {m m' : Memory} (h : Memory.wf m = true) (h' : Memory.wf m' = true)
    (hr : ∀ i, Memory.read m i = Memory.read m' i) : m = m' := by
  induction m generalizing m' with
  | nil =>
    cases m' with
    | nil => rfl
    | cons c t => have := hr c.1; simp [Memory.read] at this
  | cons c t ih =>
    cases m' with
    | nil => have := hr c.1; simp [Memory.read] at this
    | cons d u =>
      have hcd : c.1 = d.1 := by
        rcases Nat.lt_trichotomy c.1 d.1 with hlt | heq | hgt
        · have := hr c.1
          rw [Memory.read_lt_head h' hlt] at this
          simp [Memory.read] at this
        · exact heq
        · have := hr d.1
          rw [Memory.read_lt_head h hgt] at this
          simp [Memory.read] at this
      have hval : c.2 = d.2 := by
        have := hr c.1
        obtain ⟨a, b⟩ := c
        obtain ⟨a', b'⟩ := d
        simp only at hcd; subst hcd
        simpa [Memory.read] using this
      have hcd' : c = d := Prod.ext hcd hval
      subst hcd'
      congr 1
      refine ih ((Memory.wf_cons _ _).1 h).2 ((Memory.wf_cons _ _).1 h').2 fun i => ?_
      by_cases hi : i = c.1
      · have key : ∀ w : Memory, Memory.wf (c :: w) = true → Memory.read w c.1 = none := by
          intro w hw
          cases w with
          | nil => rfl
          | cons e v => exact Memory.read_lt_head ((Memory.wf_cons _ _).1 hw).2 (((Memory.wf_cons _ _).1 hw).1 e rfl)
        rw [hi, key t h, key u h']
      · have := hr i
        obtain ⟨a, b⟩ := c
        simp only at hi
        simpa [Memory.read, hi] using this

/-- Both memories are in canonical form right after reset. -/
theorem reset_memories_wf : Memory.wf State.reset.ring = true ∧ Memory.wf State.reset.txbuf = true := ⟨rfl, rfl⟩

end Sys2Proof.Machine
end

