-- ==== Sys2Proof/Laws/State.lean ====
section
/-! SUPPORT. One lemma per field per update of the shared operations, so that no later proof unfolds a record update. -/

namespace Sys2Proof.Machine

/-! ### `clearOutputs` -/

@[simp] theorem clearOutputs_params (s : State) : (clearOutputs s).params = s.params := rfl
@[simp] theorem clearOutputs_en (s : State) : (clearOutputs s).en = s.en := rfl
@[simp] theorem clearOutputs_ring (s : State) : (clearOutputs s).ring = s.ring := rfl
@[simp] theorem clearOutputs_wr (s : State) : (clearOutputs s).wr = s.wr := rfl
@[simp] theorem clearOutputs_rd (s : State) : (clearOutputs s).rd = s.rd := rfl
@[simp] theorem clearOutputs_status (s : State) : (clearOutputs s).status = s.status := rfl
@[simp] theorem clearOutputs_faultCause (s : State) : (clearOutputs s).faultCause = s.faultCause := rfl
@[simp] theorem clearOutputs_af (s : State) : (clearOutputs s).af = s.af := rfl
@[simp] theorem clearOutputs_txbuf (s : State) : (clearOutputs s).txbuf = s.txbuf := rfl
@[simp] theorem clearOutputs_txBusy (s : State) : (clearOutputs s).txBusy = s.txBusy := rfl
@[simp] theorem clearOutputs_txPos (s : State) : (clearOutputs s).txPos = s.txPos := rfl
@[simp] theorem clearOutputs_txLen (s : State) : (clearOutputs s).txLen = s.txLen := rfl
@[simp] theorem clearOutputs_de (s : State) : (clearOutputs s).de = s.de := rfl
@[simp] theorem clearOutputs_deOe (s : State) : (clearOutputs s).deOe = s.deOe := rfl
@[simp] theorem clearOutputs_rsp (s : State) : (clearOutputs s).rsp = none := rfl
@[simp] theorem clearOutputs_tx (s : State) : (clearOutputs s).tx = none := rfl
@[simp] theorem clearOutputs_lineLog (s : State) : (clearOutputs s).lineLog = s.lineLog := rfl
@[simp] theorem clearOutputs_inputs (s : State) : (clearOutputs s).inputs = s.inputs := rfl

/-! ### `respond` -/

@[simp] theorem respond_params (c : RspCode) (d : BitVec 17) (s : State) : (respond c d s).params = s.params := rfl
@[simp] theorem respond_en (c : RspCode) (d : BitVec 17) (s : State) : (respond c d s).en = s.en := rfl
@[simp] theorem respond_ring (c : RspCode) (d : BitVec 17) (s : State) : (respond c d s).ring = s.ring := rfl
@[simp] theorem respond_wr (c : RspCode) (d : BitVec 17) (s : State) : (respond c d s).wr = s.wr := rfl
@[simp] theorem respond_rd (c : RspCode) (d : BitVec 17) (s : State) : (respond c d s).rd = s.rd := rfl
@[simp] theorem respond_status (c : RspCode) (d : BitVec 17) (s : State) : (respond c d s).status = s.status := rfl
@[simp] theorem respond_faultCause (c : RspCode) (d : BitVec 17) (s : State) : (respond c d s).faultCause = s.faultCause := rfl
@[simp] theorem respond_af (c : RspCode) (d : BitVec 17) (s : State) : (respond c d s).af = s.af := rfl
@[simp] theorem respond_txbuf (c : RspCode) (d : BitVec 17) (s : State) : (respond c d s).txbuf = s.txbuf := rfl
@[simp] theorem respond_txBusy (c : RspCode) (d : BitVec 17) (s : State) : (respond c d s).txBusy = s.txBusy := rfl
@[simp] theorem respond_txPos (c : RspCode) (d : BitVec 17) (s : State) : (respond c d s).txPos = s.txPos := rfl
@[simp] theorem respond_txLen (c : RspCode) (d : BitVec 17) (s : State) : (respond c d s).txLen = s.txLen := rfl
@[simp] theorem respond_de (c : RspCode) (d : BitVec 17) (s : State) : (respond c d s).de = s.de := rfl
@[simp] theorem respond_deOe (c : RspCode) (d : BitVec 17) (s : State) : (respond c d s).deOe = s.deOe := rfl
@[simp] theorem respond_rsp (c : RspCode) (d : BitVec 17) (s : State) : (respond c d s).rsp = some (rspWord c d) := rfl
@[simp] theorem respond_tx (c : RspCode) (d : BitVec 17) (s : State) : (respond c d s).tx = s.tx := rfl
@[simp] theorem respond_lineLog (c : RspCode) (d : BitVec 17) (s : State) : (respond c d s).lineLog = s.lineLog := rfl
@[simp] theorem respond_inputs (c : RspCode) (d : BitVec 17) (s : State) : (respond c d s).inputs = s.inputs := rfl

/-! ### `enableAddressFilter` -/

@[simp] theorem enableAddressFilter_params (s : State) : (enableAddressFilter s).params = s.params := rfl
@[simp] theorem enableAddressFilter_en (s : State) : (enableAddressFilter s).en = s.en := rfl
@[simp] theorem enableAddressFilter_ring (s : State) : (enableAddressFilter s).ring = s.ring := rfl
@[simp] theorem enableAddressFilter_wr (s : State) : (enableAddressFilter s).wr = s.wr := rfl
@[simp] theorem enableAddressFilter_rd (s : State) : (enableAddressFilter s).rd = s.rd := rfl
@[simp] theorem enableAddressFilter_status (s : State) : (enableAddressFilter s).status = s.status := rfl
@[simp] theorem enableAddressFilter_faultCause (s : State) : (enableAddressFilter s).faultCause = s.faultCause := rfl
@[simp] theorem enableAddressFilter_af (s : State) : (enableAddressFilter s).af = true := rfl
@[simp] theorem enableAddressFilter_txbuf (s : State) : (enableAddressFilter s).txbuf = s.txbuf := rfl
@[simp] theorem enableAddressFilter_txBusy (s : State) : (enableAddressFilter s).txBusy = s.txBusy := rfl
@[simp] theorem enableAddressFilter_txPos (s : State) : (enableAddressFilter s).txPos = s.txPos := rfl
@[simp] theorem enableAddressFilter_txLen (s : State) : (enableAddressFilter s).txLen = s.txLen := rfl
@[simp] theorem enableAddressFilter_de (s : State) : (enableAddressFilter s).de = s.de := rfl
@[simp] theorem enableAddressFilter_deOe (s : State) : (enableAddressFilter s).deOe = s.deOe := rfl
@[simp] theorem enableAddressFilter_rsp (s : State) : (enableAddressFilter s).rsp = s.rsp := rfl
@[simp] theorem enableAddressFilter_tx (s : State) : (enableAddressFilter s).tx = s.tx := rfl
@[simp] theorem enableAddressFilter_lineLog (s : State) : (enableAddressFilter s).lineLog = s.lineLog := rfl
@[simp] theorem enableAddressFilter_inputs (s : State) : (enableAddressFilter s).inputs = s.inputs := rfl

/-! ### `disableAddressFilter` -/

@[simp] theorem disableAddressFilter_params (s : State) : (disableAddressFilter s).params = s.params := rfl
@[simp] theorem disableAddressFilter_en (s : State) : (disableAddressFilter s).en = s.en := rfl
@[simp] theorem disableAddressFilter_ring (s : State) : (disableAddressFilter s).ring = s.ring := rfl
@[simp] theorem disableAddressFilter_wr (s : State) : (disableAddressFilter s).wr = s.wr := rfl
@[simp] theorem disableAddressFilter_rd (s : State) : (disableAddressFilter s).rd = s.rd := rfl
@[simp] theorem disableAddressFilter_status (s : State) : (disableAddressFilter s).status = s.status := rfl
@[simp] theorem disableAddressFilter_faultCause (s : State) : (disableAddressFilter s).faultCause = s.faultCause := rfl
@[simp] theorem disableAddressFilter_af (s : State) : (disableAddressFilter s).af = false := rfl
@[simp] theorem disableAddressFilter_txbuf (s : State) : (disableAddressFilter s).txbuf = s.txbuf := rfl
@[simp] theorem disableAddressFilter_txBusy (s : State) : (disableAddressFilter s).txBusy = s.txBusy := rfl
@[simp] theorem disableAddressFilter_txPos (s : State) : (disableAddressFilter s).txPos = s.txPos := rfl
@[simp] theorem disableAddressFilter_txLen (s : State) : (disableAddressFilter s).txLen = s.txLen := rfl
@[simp] theorem disableAddressFilter_de (s : State) : (disableAddressFilter s).de = s.de := rfl
@[simp] theorem disableAddressFilter_deOe (s : State) : (disableAddressFilter s).deOe = s.deOe := rfl
@[simp] theorem disableAddressFilter_rsp (s : State) : (disableAddressFilter s).rsp = s.rsp := rfl
@[simp] theorem disableAddressFilter_tx (s : State) : (disableAddressFilter s).tx = s.tx := rfl
@[simp] theorem disableAddressFilter_lineLog (s : State) : (disableAddressFilter s).lineLog = s.lineLog := rfl
@[simp] theorem disableAddressFilter_inputs (s : State) : (disableAddressFilter s).inputs = s.inputs := rfl

/-! ### `enterFault` -/

@[simp] theorem enterFault_params (c : BitVec 4) (s : State) : (enterFault c s).params = s.params := rfl
@[simp] theorem enterFault_en (c : BitVec 4) (s : State) : (enterFault c s).en = s.en := rfl
@[simp] theorem enterFault_ring (c : BitVec 4) (s : State) : (enterFault c s).ring = s.ring := rfl
@[simp] theorem enterFault_wr (c : BitVec 4) (s : State) : (enterFault c s).wr = s.wr := rfl
@[simp] theorem enterFault_rd (c : BitVec 4) (s : State) : (enterFault c s).rd = s.rd := rfl
@[simp] theorem enterFault_status (c : BitVec 4) (s : State) : (enterFault c s).status = .faulted := rfl
@[simp] theorem enterFault_faultCause (c : BitVec 4) (s : State) : (enterFault c s).faultCause = s.faultCause ||| c := rfl
@[simp] theorem enterFault_af (c : BitVec 4) (s : State) : (enterFault c s).af = true := rfl
@[simp] theorem enterFault_txbuf (c : BitVec 4) (s : State) : (enterFault c s).txbuf = s.txbuf := rfl
@[simp] theorem enterFault_txBusy (c : BitVec 4) (s : State) : (enterFault c s).txBusy = s.txBusy := rfl
@[simp] theorem enterFault_txPos (c : BitVec 4) (s : State) : (enterFault c s).txPos = s.txPos := rfl
@[simp] theorem enterFault_txLen (c : BitVec 4) (s : State) : (enterFault c s).txLen = s.txLen := rfl
@[simp] theorem enterFault_de (c : BitVec 4) (s : State) : (enterFault c s).de = s.de := rfl
@[simp] theorem enterFault_deOe (c : BitVec 4) (s : State) : (enterFault c s).deOe = s.deOe := rfl
@[simp] theorem enterFault_rsp (c : BitVec 4) (s : State) : (enterFault c s).rsp = s.rsp := rfl
@[simp] theorem enterFault_tx (c : BitVec 4) (s : State) : (enterFault c s).tx = s.tx := rfl
@[simp] theorem enterFault_lineLog (c : BitVec 4) (s : State) : (enterFault c s).lineLog = s.lineLog := rfl
@[simp] theorem enterFault_inputs (c : BitVec 4) (s : State) : (enterFault c s).inputs = s.inputs := rfl

/-! ### `emit` -/

@[simp] theorem emit_params (b : Byte) (m : Bool) (s : State) : (emit b m s).params = s.params := rfl
@[simp] theorem emit_en (b : Byte) (m : Bool) (s : State) : (emit b m s).en = s.en := rfl
@[simp] theorem emit_ring (b : Byte) (m : Bool) (s : State) : (emit b m s).ring = s.ring := rfl
@[simp] theorem emit_wr (b : Byte) (m : Bool) (s : State) : (emit b m s).wr = s.wr := rfl
@[simp] theorem emit_rd (b : Byte) (m : Bool) (s : State) : (emit b m s).rd = s.rd := rfl
@[simp] theorem emit_status (b : Byte) (m : Bool) (s : State) : (emit b m s).status = s.status := rfl
@[simp] theorem emit_faultCause (b : Byte) (m : Bool) (s : State) : (emit b m s).faultCause = s.faultCause := rfl
@[simp] theorem emit_af (b : Byte) (m : Bool) (s : State) : (emit b m s).af = s.af := rfl
@[simp] theorem emit_txbuf (b : Byte) (m : Bool) (s : State) : (emit b m s).txbuf = s.txbuf := rfl
@[simp] theorem emit_txBusy (b : Byte) (m : Bool) (s : State) : (emit b m s).txBusy = s.txBusy := rfl
@[simp] theorem emit_txPos (b : Byte) (m : Bool) (s : State) : (emit b m s).txPos = s.txPos := rfl
@[simp] theorem emit_txLen (b : Byte) (m : Bool) (s : State) : (emit b m s).txLen = s.txLen := rfl
@[simp] theorem emit_de (b : Byte) (m : Bool) (s : State) : (emit b m s).de = s.de := rfl
@[simp] theorem emit_deOe (b : Byte) (m : Bool) (s : State) : (emit b m s).deOe = s.deOe := rfl
@[simp] theorem emit_rsp (b : Byte) (m : Bool) (s : State) : (emit b m s).rsp = s.rsp := rfl
@[simp] theorem emit_tx (b : Byte) (m : Bool) (s : State) : (emit b m s).tx = some (txWord m b) := rfl
@[simp] theorem emit_lineLog (b : Byte) (m : Bool) (s : State) : (emit b m s).lineLog = s.lineLog ++ [.ch b m] := rfl
@[simp] theorem emit_inputs (b : Byte) (m : Bool) (s : State) : (emit b m s).inputs = s.inputs := rfl

/-! ### `writeHeader` -/

@[simp] theorem writeHeader_params (a b : Byte) (n : Nat) (s : State) : (writeHeader a b n s).params = s.params := rfl
@[simp] theorem writeHeader_en (a b : Byte) (n : Nat) (s : State) : (writeHeader a b n s).en = s.en := rfl
@[simp] theorem writeHeader_ring (a b : Byte) (n : Nat) (s : State) : (writeHeader a b n s).ring = s.ring := rfl
@[simp] theorem writeHeader_wr (a b : Byte) (n : Nat) (s : State) : (writeHeader a b n s).wr = s.wr := rfl
@[simp] theorem writeHeader_rd (a b : Byte) (n : Nat) (s : State) : (writeHeader a b n s).rd = s.rd := rfl
@[simp] theorem writeHeader_status (a b : Byte) (n : Nat) (s : State) : (writeHeader a b n s).status = s.status := rfl
@[simp] theorem writeHeader_faultCause (a b : Byte) (n : Nat) (s : State) : (writeHeader a b n s).faultCause = s.faultCause := rfl
@[simp] theorem writeHeader_af (a b : Byte) (n : Nat) (s : State) : (writeHeader a b n s).af = s.af := rfl
@[simp] theorem writeHeader_txbuf (a b : Byte) (n : Nat) (s : State) : (writeHeader a b n s).txbuf = Memory.writeList s.txbuf 0 (headerBytes a b n) := rfl
@[simp] theorem writeHeader_txBusy (a b : Byte) (n : Nat) (s : State) : (writeHeader a b n s).txBusy = s.txBusy := rfl
@[simp] theorem writeHeader_txPos (a b : Byte) (n : Nat) (s : State) : (writeHeader a b n s).txPos = s.txPos := rfl
@[simp] theorem writeHeader_txLen (a b : Byte) (n : Nat) (s : State) : (writeHeader a b n s).txLen = s.txLen := rfl
@[simp] theorem writeHeader_de (a b : Byte) (n : Nat) (s : State) : (writeHeader a b n s).de = s.de := rfl
@[simp] theorem writeHeader_deOe (a b : Byte) (n : Nat) (s : State) : (writeHeader a b n s).deOe = s.deOe := rfl
@[simp] theorem writeHeader_rsp (a b : Byte) (n : Nat) (s : State) : (writeHeader a b n s).rsp = s.rsp := rfl
@[simp] theorem writeHeader_tx (a b : Byte) (n : Nat) (s : State) : (writeHeader a b n s).tx = s.tx := rfl
@[simp] theorem writeHeader_lineLog (a b : Byte) (n : Nat) (s : State) : (writeHeader a b n s).lineLog = s.lineLog := rfl
@[simp] theorem writeHeader_inputs (a b : Byte) (n : Nat) (s : State) : (writeHeader a b n s).inputs = s.inputs := rfl

/-! ### `setDe` -/

@[simp] theorem setDe_params (l : Bool) (s : State) : (setDe l s).params = s.params := by unfold setDe; split <;> simp_all
@[simp] theorem setDe_en (l : Bool) (s : State) : (setDe l s).en = s.en := by unfold setDe; split <;> simp_all
@[simp] theorem setDe_ring (l : Bool) (s : State) : (setDe l s).ring = s.ring := by unfold setDe; split <;> simp_all
@[simp] theorem setDe_wr (l : Bool) (s : State) : (setDe l s).wr = s.wr := by unfold setDe; split <;> simp_all
@[simp] theorem setDe_rd (l : Bool) (s : State) : (setDe l s).rd = s.rd := by unfold setDe; split <;> simp_all
@[simp] theorem setDe_status (l : Bool) (s : State) : (setDe l s).status = s.status := by unfold setDe; split <;> simp_all
@[simp] theorem setDe_faultCause (l : Bool) (s : State) : (setDe l s).faultCause = s.faultCause := by unfold setDe; split <;> simp_all
@[simp] theorem setDe_af (l : Bool) (s : State) : (setDe l s).af = s.af := by unfold setDe; split <;> simp_all
@[simp] theorem setDe_txbuf (l : Bool) (s : State) : (setDe l s).txbuf = s.txbuf := by unfold setDe; split <;> simp_all
@[simp] theorem setDe_txBusy (l : Bool) (s : State) : (setDe l s).txBusy = s.txBusy := by unfold setDe; split <;> simp_all
@[simp] theorem setDe_txPos (l : Bool) (s : State) : (setDe l s).txPos = s.txPos := by unfold setDe; split <;> simp_all
@[simp] theorem setDe_txLen (l : Bool) (s : State) : (setDe l s).txLen = s.txLen := by unfold setDe; split <;> simp_all
@[simp] theorem setDe_de (l : Bool) (s : State) : (setDe l s).de = l := by unfold setDe; split <;> simp_all
@[simp] theorem setDe_deOe (l : Bool) (s : State) : (setDe l s).deOe = s.deOe := by unfold setDe; split <;> simp_all
@[simp] theorem setDe_rsp (l : Bool) (s : State) : (setDe l s).rsp = s.rsp := by unfold setDe; split <;> simp_all
@[simp] theorem setDe_tx (l : Bool) (s : State) : (setDe l s).tx = s.tx := by unfold setDe; split <;> simp_all
@[simp] theorem setDe_lineLog (l : Bool) (s : State) : (setDe l s).lineLog = if s.de = l then s.lineLog else s.lineLog ++ [.de l] := by unfold setDe; split <;> simp_all
@[simp] theorem setDe_inputs (l : Bool) (s : State) : (setDe l s).inputs = s.inputs := by unfold setDe; split <;> simp_all

/-! ### `updateStatus` -/

@[simp] theorem updateStatus_params (s : State) : (updateStatus s).params = s.params := by unfold updateStatus; split_ifs <;> rfl
@[simp] theorem updateStatus_en (s : State) : (updateStatus s).en = s.en := by unfold updateStatus; split_ifs <;> rfl
@[simp] theorem updateStatus_ring (s : State) : (updateStatus s).ring = s.ring := by unfold updateStatus; split_ifs <;> rfl
@[simp] theorem updateStatus_wr (s : State) : (updateStatus s).wr = s.wr := by unfold updateStatus; split_ifs <;> rfl
@[simp] theorem updateStatus_rd (s : State) : (updateStatus s).rd = s.rd := by unfold updateStatus; split_ifs <;> rfl
@[simp] theorem updateStatus_faultCause (s : State) : (updateStatus s).faultCause = s.faultCause := by unfold updateStatus; split_ifs <;> rfl
@[simp] theorem updateStatus_txbuf (s : State) : (updateStatus s).txbuf = s.txbuf := by unfold updateStatus; split_ifs <;> rfl
@[simp] theorem updateStatus_txBusy (s : State) : (updateStatus s).txBusy = s.txBusy := by unfold updateStatus; split_ifs <;> rfl
@[simp] theorem updateStatus_txPos (s : State) : (updateStatus s).txPos = s.txPos := by unfold updateStatus; split_ifs <;> rfl
@[simp] theorem updateStatus_txLen (s : State) : (updateStatus s).txLen = s.txLen := by unfold updateStatus; split_ifs <;> rfl
@[simp] theorem updateStatus_de (s : State) : (updateStatus s).de = s.de := by unfold updateStatus; split_ifs <;> rfl
@[simp] theorem updateStatus_deOe (s : State) : (updateStatus s).deOe = s.deOe := by unfold updateStatus; split_ifs <;> rfl
@[simp] theorem updateStatus_rsp (s : State) : (updateStatus s).rsp = s.rsp := by unfold updateStatus; split_ifs <;> rfl
@[simp] theorem updateStatus_tx (s : State) : (updateStatus s).tx = s.tx := by unfold updateStatus; split_ifs <;> rfl
@[simp] theorem updateStatus_lineLog (s : State) : (updateStatus s).lineLog = s.lineLog := by unfold updateStatus; split_ifs <;> rfl
@[simp] theorem updateStatus_inputs (s : State) : (updateStatus s).inputs = s.inputs := by unfold updateStatus; split_ifs <;> rfl

end Sys2Proof.Machine
end

