-- ==== Sys2Proof/Laws/Ring.lean ====
section
/-! SUPPORT. The laws of the receive ring: the occupancy is the difference of the cursors, a push appends to the queue
of unretired bytes, retiring drops from its front (41_rx_ring.md R91 to R97). -/

namespace Sys2Proof.Machine

theorem cap_pos (p : Params) : 0 < p.cap := Nat.two_pow_pos _

theorem cursorMod_eq (p : Params) : p.cursorMod = 2 * p.cap := by
  simp only [Params.cursorMod, Params.cap]; omega

theorem mod_mod_cap (p : Params) (a : Nat) : a % p.cursorMod % p.cap = a % p.cap :=
  Nat.mod_mod_of_dvd a ⟨2, by rw [cursorMod_eq, Nat.mul_comm]⟩

/-- The occupancy is below the modulus of the cursors. -/
theorem occupancy_lt (s : State) : occupancy s < s.params.cursorMod :=
  Nat.mod_lt _ (Nat.two_pow_pos _)

/-- The occupancy reads the parameters and the cursors only. -/
theorem occupancy_congr {s t : State} (hp : t.params = s.params) (hw : t.wr = s.wr) (hr : t.rd = s.rd) :
    occupancy t = occupancy s := by
  simp only [occupancy, hp, hw, hr]

/-- The write cursor is the read cursor plus the occupancy. -/
theorem rd_add_occupancy (s : State) :
    (s.rd + occupancy s) % s.params.cursorMod = s.wr % s.params.cursorMod := by
  have hM : 0 < s.params.cursorMod := Nat.two_pow_pos _
  have hlt := Nat.mod_lt s.rd hM
  rw [occupancy, Nat.add_mod_mod]
  have : s.rd + (s.wr + (s.params.cursorMod - s.rd % s.params.cursorMod)) =
      s.wr + s.params.cursorMod * (s.rd / s.params.cursorMod + 1) := by
    have := Nat.div_add_mod s.rd s.params.cursorMod
    rw [Nat.mul_add, Nat.mul_one]; omega
  rw [this, Nat.add_mul_mod_self_left]

/-- The occupancy is the one number below the modulus with that property. -/
theorem occupancy_unique (s : State) {x : Nat} (hx : x < s.params.cursorMod)
    (h : (s.rd + x) % s.params.cursorMod = s.wr % s.params.cursorMod) : occupancy s = x := by
  have hocc := rd_add_occupancy s
  have hlt := occupancy_lt s
  have : (s.rd + occupancy s) ≡ (s.rd + x) [MOD s.params.cursorMod] := hocc.trans h.symm
  have := Nat.ModEq.add_left_cancel' s.rd this
  rwa [Nat.ModEq, Nat.mod_eq_of_lt hlt, Nat.mod_eq_of_lt hx] at this

/-- The occupancy, as an integer difference (R91). -/
theorem occupancy_int (s : State) : (occupancy s : Int) = ((s.wr : Int) - s.rd) % (s.params.cursorMod : Int) := by
  have hlt := occupancy_lt s
  have h : ((s.wr : Int)) ≡ (s.rd : Int) + occupancy s [ZMOD s.params.cursorMod] := by
    have := rd_add_occupancy s
    have h2 : ((s.rd + occupancy s : Nat) : Int) % (s.params.cursorMod : Int) =
        (s.wr : Int) % (s.params.cursorMod : Int) := by exact_mod_cast this
    exact h2.symm.trans (by push_cast; rfl)
  have h3 : ((s.wr : Int) - s.rd) ≡ occupancy s [ZMOD s.params.cursorMod] := by
    have := h.sub_right (s.rd : Int)
    simpa using this
  rw [h3.eq, Int.emod_eq_of_lt (by omega) (by exact_mod_cast hlt)]

/-- Where the next byte is pushed: behind the unretired bytes. -/
theorem ringIndex_wr (s : State) :
    ringIndex s.params s.wr = ringIndex s.params (s.rd + occupancy s) := by
  simp only [ringIndex]
  rw [← mod_mod_cap, ← rd_add_occupancy, mod_mod_cap]

/-- Offsets less than `CAP` apart lie at different indices. -/
theorem ringIndex_inj (p : Params) (a : Nat) {i j : Nat} (hi : i < p.cap) (hj : j < p.cap)
    (h : ringIndex p (a + i) = ringIndex p (a + j)) : i = j := by
  have := Nat.ModEq.add_left_cancel' a (show a + i ≡ a + j [MOD p.cap] from h)
  rwa [Nat.ModEq, Nat.mod_eq_of_lt hi, Nat.mod_eq_of_lt hj] at this

theorem readRing_congr {s t : State} (h : t.ring = s.ring) (i : Nat) : readRing t i = readRing s i := by
  simp only [readRing, h]

theorem ringByte_congr {s t : State} (hp : t.params = s.params) (hm : t.ring = s.ring) (hr : t.rd = s.rd) (i : Nat) :
    ringByte t i = ringByte s i := by
  simp only [ringByte, readRing, hp, hm, hr]

/-- The queue reads the parameters, the ring and its cursors only. -/
theorem queue_congr {s t : State} (hp : t.params = s.params) (hm : t.ring = s.ring) (hw : t.wr = s.wr)
    (hr : t.rd = s.rd) : queue t = queue s := by
  rw [queue, queue, occupancy_congr hp hw hr]
  exact List.map_congr_left fun i _ => ringByte_congr hp hm hr i

@[simp] theorem queue_length (s : State) : (queue s).length = occupancy s := by simp [queue]

theorem queue_getElem (s : State) {i : Nat} (h : i < (queue s).length) : (queue s)[i] = ringByte s i := by
  simp [queue]

/-! ### `push` -/

/-- Everything a push that succeeds does. -/
theorem push_some {d : Byte} {s t : State} (h : push d s = some t) :
    occupancy s < s.params.cap ∧
    t = { s with
      ring := Memory.write s.ring (ringIndex s.params s.wr) d
      wr := (s.wr + 1) % s.params.cursorMod } := by
  unfold push at h
  split_ifs at h with hc
  exact ⟨hc, by simpa using h.symm⟩

/-- A push overflows exactly on a full ring. -/
theorem push_none {d : Byte} {s : State} : push d s = none ↔ s.params.cap ≤ occupancy s := by
  simp [push]

/-- A push changes no byte but the one at the write cursor. -/
theorem readRing_push_other {d : Byte} {s t : State} (h : push d s = some t) {i : Nat}
    (hi : i ≠ ringIndex s.params s.wr) : readRing t i = readRing s i := by
  obtain ⟨_, rfl⟩ := push_some h
  simp only [readRing, Memory.read_write_other _ _ hi]

theorem occupancy_push {d : Byte} {s t : State} (h : push d s = some t) : occupancy t = occupancy s + 1 := by
  obtain ⟨hc, rfl⟩ := push_some h
  have hM := cursorMod_eq s.params
  refine occupancy_unique _ (by show occupancy s + 1 < s.params.cursorMod; omega) ?_
  show (s.rd + (occupancy s + 1)) % s.params.cursorMod = (s.wr + 1) % s.params.cursorMod % s.params.cursorMod
  rw [Nat.mod_mod, ← Nat.add_assoc, Nat.add_mod, rd_add_occupancy, ← Nat.add_mod]

theorem ringByte_push_old {d : Byte} {s t : State} (h : push d s = some t) {j : Nat} (hj : j < occupancy s) :
    ringByte t j = ringByte s j := by
  obtain ⟨hc, rfl⟩ := push_some h
  have : ringIndex s.params (s.rd + j) ≠ ringIndex s.params s.wr := fun he => by
    rw [ringIndex_wr] at he
    have := ringIndex_inj s.params s.rd (by omega) hc he
    omega
  simp only [ringByte, readRing, Memory.read_write_other _ _ this]

theorem ringByte_push_new {d : Byte} {s t : State} (h : push d s = some t) : ringByte t (occupancy s) = d := by
  obtain ⟨hc, rfl⟩ := push_some h
  simp only [ringByte, readRing, ← ringIndex_wr, Memory.read_write_same, Option.getD_some]

/-- A push appends to the queue (R92, R97). -/
theorem queue_push {d : Byte} {s t : State} (h : push d s = some t) : queue t = queue s ++ [d] := by
  simp only [queue, occupancy_push h, List.range_succ, List.map_append, List.map_cons, List.map_nil,
    ringByte_push_new h]
  congr 1
  exact List.map_congr_left fun j hj => ringByte_push_old h (List.mem_range.1 hj)

/-! ### `advance_read` -/

/-- Everything retiring bytes does. -/
theorem advanceRead_some {n : Nat} {s t : State} (h : advanceRead n s = some t) :
    n ≤ occupancy s ∧ t = { s with rd := (s.rd + n) % s.params.cursorMod } := by
  unfold advanceRead at h
  split_ifs at h with hc
  exact ⟨hc, by simpa using h.symm⟩

theorem occupancy_advanceRead {n : Nat} {s t : State} (h : advanceRead n s = some t) :
    occupancy t = occupancy s - n := by
  obtain ⟨hc, rfl⟩ := advanceRead_some h
  have hlt := occupancy_lt s
  refine occupancy_unique _ (by show occupancy s - n < s.params.cursorMod; omega) ?_
  show ((s.rd + n) % s.params.cursorMod + (occupancy s - n)) % s.params.cursorMod = s.wr % s.params.cursorMod
  rw [Nat.mod_add_mod, ← rd_add_occupancy]
  congr 1; omega

theorem ringByte_advanceRead {n : Nat} {s t : State} (h : advanceRead n s = some t) (j : Nat) :
    ringByte t j = ringByte s (n + j) := by
  obtain ⟨hc, rfl⟩ := advanceRead_some h
  show readRing s (((s.rd + n) % s.params.cursorMod + j) % s.params.cap) = readRing s ((s.rd + (n + j)) % s.params.cap)
  rw [Nat.add_mod, mod_mod_cap, ← Nat.add_mod, Nat.add_assoc]

/-- Retiring drops from the front of the queue (R95, R97). -/
theorem queue_advanceRead {n : Nat} {s t : State} (h : advanceRead n s = some t) : queue t = (queue s).drop n := by
  apply List.ext_getElem
  · simp [occupancy_advanceRead h]
  · intro i h1 h2
    rw [queue_getElem, List.getElem_drop, queue_getElem, ringByte_advanceRead h]

/-- Retiring more than is buffered is refused (U4). -/
theorem advanceRead_none {n : Nat} {s : State} (h : occupancy s < n) : advanceRead n s = none := by
  rw [advanceRead, if_neg (by omega)]

/-! ### `peek_window` -/

theorem peekWindow_one {s : State} {i : Nat} (h : i < occupancy s) : peekWindow s i 1 = some [ringByte s i] := by
  rw [peekWindow, if_pos (by omega)]; simp

theorem peekWindow_some {s : State} {o n : Nat} (h : o + n ≤ occupancy s) :
    peekWindow s o n = some (((queue s).drop o).take n) := by
  rw [peekWindow, if_pos h]
  congr 1
  apply List.ext_getElem
  · simp; omega
  · intro i h1 h2
    simp [queue_getElem]

/-- A peek outside the buffered bytes is refused (U3). -/
theorem peekWindow_none {s : State} {o n : Nat} (h : occupancy s < o + n) : peekWindow s o n = none := by
  rw [peekWindow, if_neg (by omega)]

end Sys2Proof.Machine
end

