-- ==== Sys2Proof/Laws/Detect.lean ====
section
/-! SUPPORT. The detector as a function of the queue of unretired bytes (42_frame_detector.md R101). -/

namespace Sys2Proof.Machine

/-- The detector's three steps on a list of bytes. -/
def detectBytes (q : List Byte) : Status :=
  match validateHeader q with
  | .short => .idle
  | .mismatch => .headerChecksumMismatch
  | .valid p => if 6 + p.length ≤ q.length then .completeFrame else .idle

/-- The detector reads the queue and nothing else. -/
theorem detect_eq (s : State) : detect s = detectBytes (queue s) := by
  unfold detect detectBytes
  by_cases h : occupancy s < 6
  · rw [if_pos h, validateHeader_short (by simpa using h)]
  · have hq : 6 ≤ (queue s).length := by simpa using h
    have hsplit : validateHeader (queue s) = validateHeader ((queue s).take 6) := by
      conv_lhs => rw [← List.take_append_drop 6 (queue s)]
      exact validateHeader_take (by simpa using h) _
    rw [if_neg h, peekWindow_some (by omega), hsplit]
    simp only [List.drop_zero, queue_length]
    all_goals rfl

theorem detect_congr {s t : State} (h : queue t = queue s) : detect t = detect s := by
  rw [detect_eq, detect_eq, h]

theorem detectBytes_ne_faulted (q : List Byte) : detectBytes q ≠ .faulted := by
  unfold detectBytes; split
  · simp
  · simp
  · split_ifs <;> simp

/-- `Faulted` is never a result of `detect` (R101). -/
theorem detect_ne_faulted (s : State) : detect s ≠ .faulted := by
  rw [detect_eq]; exact detectBytes_ne_faulted _

theorem detectBytes_nil : detectBytes [] = .idle := rfl

theorem detectBytes_short {q : List Byte} (h : q.length < 6) : detectBytes q = .idle := by
  rw [detectBytes, validateHeader_short h]

/-- A complete frame is a valid header with all its bytes present. -/
theorem detectBytes_complete {q : List Byte} (h : detectBytes q = .completeFrame) :
    6 ≤ q.length ∧ frameLengthOf q ≤ q.length := by
  unfold detectBytes at h
  split at h
  · cases h
  · cases h
  · rename_i p hv
    split_ifs at h with hl
    refine ⟨by omega, ?_⟩
    rw [frameLengthOf_valid hv]; exact hl

/-- More bytes leave a complete frame complete and a mismatch a mismatch (R103, R110). -/
theorem detectBytes_append {q r : List Byte} (h : detectBytes q ≠ .idle) : detectBytes (q ++ r) = detectBytes q := by
  by_cases hl : q.length < 6
  · exact absurd (detectBytes_short hl) h
  · unfold detectBytes at h ⊢
    rw [validateHeader_take (by omega)]
    split
    · rfl
    · rfl
    · rename_i p hv
      rw [hv] at h
      by_cases hp : 6 + p.length ≤ q.length
      · simp [hp]; omega
      · simp [hp] at h

/-! ### `update_status` -/

/-- Everything `update_status` does outside the fault state. -/
theorem updateStatus_eq {s : State} (h : s.status ≠ .faulted) :
    updateStatus s = { s with status := detect s, af := s.af || decide (detect s = .completeFrame) } := by
  unfold updateStatus
  rw [if_neg h]
  split_ifs with hc
  · rw [hc]; simp [enableAddressFilter]
  · simp [hc]

theorem updateStatus_status {s : State} (h : s.status ≠ .faulted) : (updateStatus s).status = detect s := by
  rw [updateStatus_eq h]

theorem updateStatus_af {s : State} (h : s.status ≠ .faulted) :
    (updateStatus s).af = (s.af || decide (detect s = .completeFrame)) := by
  rw [updateStatus_eq h]

@[simp] theorem queue_updateStatus (s : State) : queue (updateStatus s) = queue s :=
  queue_congr (by simp) (by simp) (by simp) (by simp)

@[simp] theorem queue_clearOutputs (s : State) : queue (clearOutputs s) = queue s := rfl

@[simp] theorem queue_respond (c : RspCode) (d : BitVec 17) (s : State) : queue (respond c d s) = queue s := rfl

@[simp] theorem queue_enterFault (c : BitVec 4) (s : State) : queue (enterFault c s) = queue s := rfl

/-! ### `accept_and_push` -/

/-- Everything `accept_and_push` does outside the fault state: a push with the detector run on it, or the overflow
fault (R121). -/
theorem acceptAndPush_cases (d : Byte) {s : State} (h : s.status ≠ .faulted) :
    (∃ t, push d s = some t ∧ queue t = queue s ++ [d] ∧
      acceptAndPush d s =
        { t with status := detect t, af := s.af || decide (detect t = .completeFrame) }) ∨
    (s.params.cap ≤ occupancy s ∧ acceptAndPush d s = enterFault overflowCause s) := by
  unfold acceptAndPush
  cases hp : push d s with
  | none => exact .inr ⟨push_none.1 hp, rfl⟩
  | some t =>
    refine .inl ⟨t, rfl, queue_push hp, ?_⟩
    have ht : t.status = s.status ∧ t.af = s.af := by obtain ⟨_, rfl⟩ := push_some hp; exact ⟨rfl, rfl⟩
    show updateStatus t = _
    rw [updateStatus_eq (by rw [ht.1]; exact h), ht.2]


/-! The fields `accept_and_push` leaves alone in every case. -/

@[simp] theorem acceptAndPush_params (d : Byte) (s : State) : (acceptAndPush d s).params = s.params := by
  unfold acceptAndPush
  split
  · rename_i t h; obtain ⟨_, rfl⟩ := push_some h; simp
  · rfl
@[simp] theorem acceptAndPush_en (d : Byte) (s : State) : (acceptAndPush d s).en = s.en := by
  unfold acceptAndPush
  split
  · rename_i t h; obtain ⟨_, rfl⟩ := push_some h; simp
  · rfl
@[simp] theorem acceptAndPush_rd (d : Byte) (s : State) : (acceptAndPush d s).rd = s.rd := by
  unfold acceptAndPush
  split
  · rename_i t h; obtain ⟨_, rfl⟩ := push_some h; simp
  · rfl
@[simp] theorem acceptAndPush_txbuf (d : Byte) (s : State) : (acceptAndPush d s).txbuf = s.txbuf := by
  unfold acceptAndPush
  split
  · rename_i t h; obtain ⟨_, rfl⟩ := push_some h; simp
  · rfl
@[simp] theorem acceptAndPush_txBusy (d : Byte) (s : State) : (acceptAndPush d s).txBusy = s.txBusy := by
  unfold acceptAndPush
  split
  · rename_i t h; obtain ⟨_, rfl⟩ := push_some h; simp
  · rfl
@[simp] theorem acceptAndPush_txPos (d : Byte) (s : State) : (acceptAndPush d s).txPos = s.txPos := by
  unfold acceptAndPush
  split
  · rename_i t h; obtain ⟨_, rfl⟩ := push_some h; simp
  · rfl
@[simp] theorem acceptAndPush_txLen (d : Byte) (s : State) : (acceptAndPush d s).txLen = s.txLen := by
  unfold acceptAndPush
  split
  · rename_i t h; obtain ⟨_, rfl⟩ := push_some h; simp
  · rfl
@[simp] theorem acceptAndPush_de (d : Byte) (s : State) : (acceptAndPush d s).de = s.de := by
  unfold acceptAndPush
  split
  · rename_i t h; obtain ⟨_, rfl⟩ := push_some h; simp
  · rfl
@[simp] theorem acceptAndPush_deOe (d : Byte) (s : State) : (acceptAndPush d s).deOe = s.deOe := by
  unfold acceptAndPush
  split
  · rename_i t h; obtain ⟨_, rfl⟩ := push_some h; simp
  · rfl
@[simp] theorem acceptAndPush_rsp (d : Byte) (s : State) : (acceptAndPush d s).rsp = s.rsp := by
  unfold acceptAndPush
  split
  · rename_i t h; obtain ⟨_, rfl⟩ := push_some h; simp
  · rfl
@[simp] theorem acceptAndPush_tx (d : Byte) (s : State) : (acceptAndPush d s).tx = s.tx := by
  unfold acceptAndPush
  split
  · rename_i t h; obtain ⟨_, rfl⟩ := push_some h; simp
  · rfl
@[simp] theorem acceptAndPush_lineLog (d : Byte) (s : State) : (acceptAndPush d s).lineLog = s.lineLog := by
  unfold acceptAndPush
  split
  · rename_i t h; obtain ⟨_, rfl⟩ := push_some h; simp
  · rfl
@[simp] theorem acceptAndPush_inputs (d : Byte) (s : State) : (acceptAndPush d s).inputs = s.inputs := by
  unfold acceptAndPush
  split
  · rename_i t h; obtain ⟨_, rfl⟩ := push_some h; simp
  · rfl

/-- `accept_and_push` never overwrites an unretired byte. -/
theorem acceptAndPush_window (d : Byte) (s : State) {j : Nat} (hj : j < occupancy s) :
    ringByte (acceptAndPush d s) j = ringByte s j := by
  unfold acceptAndPush
  split
  · rename_i t h
    rw [← ringByte_push_old h hj]
    exact ringByte_congr (by simp) (by simp) (by simp) j
  · rfl

/-- Behind a complete frame or a mismatch `accept_and_push` keeps the status or faults (R103, R110). -/
theorem acceptAndPush_status (d : Byte) {s : State} (h : s.status ≠ .faulted) (hd : s.status = detect s)
    (hi : s.status ≠ .idle) :
    (acceptAndPush d s).status = s.status ∨ (acceptAndPush d s).status = .faulted := by
  rcases acceptAndPush_cases d h with ⟨t, _, hq, e⟩ | ⟨_, e⟩ <;> rw [e]
  · left
    show detect t = _
    rw [hd] at hi ⊢
    rw [detect_eq] at hi ⊢
    rw [hq, detectBytes_append hi, detect_eq]
  · exact .inr rfl

end Sys2Proof.Machine
end

