-- ==== Sys2Proof/Laws/Exec.lean ====
section
/-! SUPPORT. What the shared shapes of the meanings can answer, said once: the checks of R150, the micro-operations
called inside their preconditions, starting a send, the line events. -/

namespace Sys2Proof.Machine

theorem reject_eq (c : RspCode) (s : State) :
    reject c s = .next { s with rsp := some (rspWord c 0#17), tx := none } := rfl

theorem answerOk_eq (d : BitVec 17) (s : State) : answerOk d s = .next { s with rsp := some (rspWord .ok d) } := rfl

/-- The enable check: refused, or enabled and the body's answer. -/
theorem ifInit_cases {s : State} {a b : Answer} (h : ifInit s a = b) :
    (s.en = false ∧ b = reject .errNotInit s) ∨ (s.en = true ∧ a = b) := by
  unfold ifInit at h
  split_ifs at h with he
  · exact .inr ⟨he, h⟩
  · exact .inl ⟨by simpa using he, h.symm⟩

theorem ifInit_on {s : State} (h : s.en = true) (a : Answer) : ifInit s a = a := by simp [ifInit, h]

theorem ifInit_off {s : State} (h : s.en = false) (a : Answer) : ifInit s a = reject .errNotInit s := by
  simp [ifInit, h]

/-- The busy check: refused, or idle and the body's answer. -/
theorem ifNotBusy_cases {s : State} {a b : Answer} (h : ifNotBusy s a = b) :
    (s.txBusy = true ∧ b = reject .errBusy s) ∨ (s.txBusy = false ∧ a = b) := by
  unfold ifNotBusy at h
  split_ifs at h with he
  · exact .inl ⟨he, h.symm⟩
  · exact .inr ⟨by simpa using he, h⟩

theorem ifNotBusy_off {s : State} (h : s.txBusy = false) (a : Answer) : ifNotBusy s a = a := by
  simp [ifNotBusy, h]

theorem ifNotBusy_on {s : State} (h : s.txBusy = true) (a : Answer) : ifNotBusy s a = reject .errBusy s := by
  simp [ifNotBusy, h]

theorem orRefuse_next {α : Type} {r : Refusal} {o : Option α} {f : α → Answer} {t : State}
    (h : orRefuse r o f = .next t) : ∃ x, o = some x ∧ f x = .next t := by
  cases o with
  | none => cases h
  | some x => exact ⟨x, rfl, h⟩

theorem andThen_next {a : Answer} {f : State → Answer} {t : State} (h : andThen a f = .next t) :
    ∃ u, a = .next u ∧ f u = .next t := by
  cases a with
  | next u => exact ⟨u, rfl, h⟩
  | fault _ => cases h
  | refused _ => cases h

/-- Emitting a byte of `TXBUF` at an index that exists. -/
theorem emitFromTxbuf_eq {i : Nat} {s : State} (h : i < s.params.txcap) (m : Bool) :
    emitFromTxbuf i m s = .next (emit (readTxbuf s i) m s) := by
  simp [emitFromTxbuf, fetchTxbuf, h]

theorem txcap_pos (p : Params) : 0 < p.txcap := by simp [Params.txcap]

/-- Everything starting a send does (R136). -/
theorem start_eq (s : State) (n : Nat) :
    start n s = .next { s with
      txLen := n, txPos := 1, txBusy := true, de := true
      tx := some (txWord true (readTxbuf s 0))
      lineLog := s.lineLog ++ (if s.de then [] else [.de true]) ++ [.ch (readTxbuf s 0) true] } := by
  unfold start
  rw [emitFromTxbuf_eq (by simpa using txcap_pos s.params)]
  cases h : s.de <;> simp [andThen, emit, setDe, readTxbuf]

/-- Everything `tx_next` does inside `TXBUF` (R139). -/
theorem txNext_eq {s : State} (h : s.txPos < s.params.txcap) :
    txNext s = .next { s with
      tx := some (txWord false (readTxbuf s s.txPos)), txPos := s.txPos + 1
      lineLog := s.lineLog ++ [.ch (readTxbuf s s.txPos) false] } := by
  unfold txNext
  rw [emitFromTxbuf_eq h]
  rfl

/-- Beyond `TXBUF` `tx_next` stops (log 6). -/
theorem txNext_fault {s : State} (h : s.params.txcap ≤ s.txPos) : txNext s = .fault (.txbufNoSuchAddress s.txPos) := by
  simp [txNext, emitFromTxbuf, fetchTxbuf, andThen, Nat.not_lt.2 h]

/-- Everything `tx_finish` does (R140). -/
theorem txFinish_eq (s : State) : txFinish s = { s with
    de := false, txBusy := false, lineLog := if s.de then s.lineLog ++ [.de false] else s.lineLog } := by
  cases h : s.de <;> simp [txFinish, setDe, h]

/-- Everything `BUS_INIT` and reset have in common (R152, R180). -/
theorem initialise_eq (s : State) : initialise s = { s with
    wr := 0, rd := 0, status := .idle, faultCause := 0#4, af := true, txBusy := false, txPos := 0, txLen := 0
    de := false, lineLog := if s.de then s.lineLog ++ [.de false] else s.lineLog } := by
  cases h : s.de <;> simp [initialise, setDe, h]

theorem lineEvent_off {s : State} (h : s.en = false) (f : State → State) : lineEvent f s = clearOutputs s := by
  simp [lineEvent, h]

theorem lineEvent_on {s : State} (h : s.en = true) (f : State → State) : lineEvent f s = f (clearOutputs s) := by
  simp [lineEvent, h]

/-- Leaving the fault state always succeeds, and empties the queue. -/
theorem leaveFault_eq (s : State) : leaveFault s = some { s with
    rd := (s.rd + occupancy s) % s.params.cursorMod, faultCause := 0#4, af := true, status := .idle } := by
  simp [leaveFault, advanceRead, enableAddressFilter]

theorem queue_leaveFault {s t : State} (h : leaveFault s = some t) : queue t = [] := by
  obtain ⟨u, hu, rfl⟩ := Option.map_eq_some_iff.1 h
  show queue u = []
  rw [queue_advanceRead hu]
  simp

/-! ### Runs of operations -/

theorem execAll_append (is js : List Instr) (s : State) :
    execAll (is ++ js) s = andThen (execAll is s) (execAll js) := by
  induction is generalizing s with
  | nil => rfl
  | cons i is ih =>
    show andThen (exec i s) (execAll (is ++ js)) = _
    cases h : exec i s with
    | next u => simp [andThen, execAll, h, ih]
    | fault f => simp [andThen, execAll, h]
    | refused r => simp [andThen, execAll, h]

theorem execAll_cons_next {i : Instr} {s u : State} (h : exec i s = .next u) (is : List Instr) :
    execAll (i :: is) s = execAll is u := by
  simp [execAll, h, andThen]

end Sys2Proof.Machine
end

