-- ==== Sys2Proof/Laws/Effect.lean ====
section
/-! SUPPORT. Everything an operation can do when it goes on, said once, for proofs about all operations. -/

namespace Sys2Proof.Machine

/-- `Effect s i t`: the ways the operation `i` takes `s` to `t`. -/
inductive Effect (s : State) : Instr → State → Prop
  /-- A command refused with an error code. -/
  | rejected {i : Instr} (c : RspCode) (hi : i.agent = .host) (hc : c ≠ .ok) :
      Effect s i (respond c 0#17 (clearOutputs s))
  /-- A command that only answers a value. -/
  | answered {i : Instr} (d : BitVec 17) (hi : i.agent = .host) : Effect s i (respond .ok d (clearOutputs s))
  | busInit : Effect s .busInit (respond .ok 0#17 { clearOutputs s with
      en := true, wr := 0, rd := 0, status := .idle, faultCause := 0#4, af := true, txBusy := false, txPos := 0
      txLen := 0, de := false, deOe := true, lineLog := if s.de then s.lineLog ++ [.de false] else s.lineLog })
  | reset : Effect s .reset { clearOutputs s with
      en := false, wr := 0, rd := 0, status := .idle, faultCause := 0#4, af := true, txBusy := false, txPos := 0
      txLen := 0, de := false, deOe := false, lineLog := if s.de then s.lineLog ++ [.de false] else s.lineLog }
  /-- `PACKET_DONE` or `SKIP_BYTE`: `n` bytes retired, the detector run. -/
  | retired {i : Instr} (n : Nat) {u : State} (hi : i = .packetDone ∨ i = .skipByte) (he : s.en = true)
      (hs : s.status ≠ .faulted) (hu : advanceRead n (clearOutputs s) = some u) :
      Effect s i (respond .ok 0#17 (updateStatus u))
  | recovered (he : s.en = true) (hs : s.status = .faulted) : Effect s .recover (respond .ok 0#17 { clearOutputs s with
      rd := (s.rd + occupancy s) % s.params.cursorMod, faultCause := 0#4, af := true, status := .idle })
  /-- `TXBUF_WRITE` or `ENCODE_FRAME`: bytes of `TXBUF` from `a` on. -/
  | stored {i : Instr} (a : Nat) (bytes : List Byte) (ha : a + bytes.length ≤ s.params.txcap)
      (hi : (∃ b n, i = .txbufWrite b n) ∨ ∃ b c n, i = .encodeFrame b c n) (he : s.en = true)
      (hb : s.txBusy = false) :
      Effect s i (respond .ok 0#17 { clearOutputs s with txbuf := Memory.writeList s.txbuf a bytes })
  /-- `SEND` or `SEND_RAW`: bytes of `TXBUF` written (none by `SEND_RAW`), a transmission of `n` bytes started. -/
  | started {i : Instr} (bytes : List Byte) (n : Nat) (ha : bytes.length ≤ s.params.txcap) (h1 : 1 ≤ n)
      (h2 : n ≤ s.params.txcap) (hi : (∃ b c k, i = .send b c k) ∨ (bytes = [] ∧ ∃ k, i = .sendRaw k))
      (he : s.en = true) (hb : s.txBusy = false) :
      Effect s i (respond .ok 0#17 { clearOutputs s with
        txbuf := Memory.writeList s.txbuf 0 bytes, txLen := n, txPos := 1, txBusy := true, de := true
        tx := some (txWord true (readTxbuf { s with txbuf := Memory.writeList s.txbuf 0 bytes } 0))
        lineLog := s.lineLog ++ (if s.de then [] else [.de true]) ++
          [.ch (readTxbuf { s with txbuf := Memory.writeList s.txbuf 0 bytes } 0) true] })
  /-- A line event that changes nothing. -/
  | ignored {i : Instr} (hi : i.agent = .rxLine ∨ i.agent = .txLine) : Effect s i (clearOutputs s)
  /-- A flagged character. -/
  | faulted {i : Instr} (c : BitVec 4) (hi : i.agent = .rxLine) (hc : c ≠ 0#4) (he : s.en = true) :
      Effect s i (enterFault c (clearOutputs s))
  /-- An address character that is not accepted. -/
  | armed (d : Byte) (he : s.en = true) (hs : s.status ≠ .faulted) :
      Effect s (.rxAddrMismatch d) (enableAddressFilter (clearOutputs s))
  /-- An accepted address character. -/
  | addressed (d : Byte) (he : s.en = true) (hs : s.status ≠ .faulted) :
      Effect s (.rxAddrMatch d) (acceptAndPush d (disableAddressFilter (clearOutputs s)))
  /-- A data character that passes the filter. -/
  | collected (d : Byte) (he : s.en = true) (hs : s.status ≠ .faulted) (ha : s.af = false) :
      Effect s (.rxData d) (acceptAndPush d (clearOutputs s))
  /-- A transmit event that emits a byte. -/
  | emitted (he : s.en = true) (hb : s.txBusy = true) (hp : s.txPos < s.txLen) (hc : s.txPos < s.params.txcap) :
      Effect s .txEvent { clearOutputs s with
        tx := some (txWord false (readTxbuf s s.txPos)), txPos := s.txPos + 1
        lineLog := s.lineLog ++ [.ch (readTxbuf s s.txPos) false] }
  /-- A transmit event that ends the transmission. -/
  | finished (he : s.en = true) (hb : s.txBusy = true) (hp : s.txLen ≤ s.txPos) :
      Effect s .txEvent { clearOutputs s with
        de := false, txBusy := false, lineLog := if s.de then s.lineLog ++ [.de false] else s.lineLog }

theorem effect_reject {i : Instr} {c : RspCode} {s t : State} (hi : i.agent = .host) (hc : c ≠ .ok)
    (h : reject c s = .next t) : Effect s i t := by
  cases h; exact .rejected c hi hc

theorem effect_ifInit {i : Instr} {s t : State} {a : Answer} (hi : i.agent = .host) (h : ifInit s a = .next t)
    (k : s.en = true → a = .next t → Effect s i t) : Effect s i t := by
  rcases ifInit_cases h with ⟨_, h⟩ | ⟨he, h⟩
  · exact effect_reject hi (by simp) h.symm
  · exact k he h

theorem effect_ifNotBusy {i : Instr} {s t : State} {a : Answer} (hi : i.agent = .host)
    (h : ifNotBusy s a = .next t) (k : s.txBusy = false → a = .next t → Effect s i t) : Effect s i t := by
  rcases ifNotBusy_cases h with ⟨_, h⟩ | ⟨hb, h⟩
  · exact effect_reject hi (by simp) h.symm
  · exact k hb h

theorem effect_lineEvent {i : Instr} {s : State} {f : State → State} (hi : i.agent = .rxLine ∨ i.agent = .txLine)
    (k : s.en = true → Effect s i (f (clearOutputs s))) : Effect s i (lineEvent f s) := by
  cases he : s.en
  · rw [lineEvent_off he]; exact .ignored hi
  · rw [lineEvent_on he]; exact k he

theorem effect_unlessFaulted {i : Instr} {s : State} {f : State → State} (hi : i.agent = .rxLine ∨ i.agent = .txLine)
    (k : s.status ≠ .faulted → Effect s i (f (clearOutputs s))) :
    Effect s i (unlessFaulted f (clearOutputs s)) := by
  unfold unlessFaulted
  split_ifs with hs
  · exact .ignored hi
  · exact k hs

/-- Every operation that goes on does one of these. -/
theorem exec_effect {i : Instr} {s t : State} (h : exec i s = .next t) : Effect s i t := by
  cases i with
  | nop => cases h; exact .answered _ rfl
  | busInit =>
    have h : answerOk 0#17 { initialise (clearOutputs s) with en := true, deOe := true } = .next t := h
    rw [initialise_eq] at h; cases h; exact .busInit
  | reset =>
    have h : Host.Outcome.next { initialise (clearOutputs s) with en := false, deOe := false } = .next t := h
    rw [initialise_eq] at h; cases h; exact .reset
  | busStatus => cases h; exact .answered _ rfl
  | currentFrame n =>
    refine effect_ifInit rfl h fun he h => ?_
    split_ifs at h with hs
    · obtain ⟨w, _, h⟩ := orRefuse_next h
      split_ifs at h
      · exact effect_reject rfl (by simp) h
      · obtain ⟨b, _, h⟩ := orRefuse_next h
        cases h; exact .answered _ rfl
    · exact effect_reject rfl (by simp) h
  | packetDone =>
    refine effect_ifInit rfl h fun he h => ?_
    split_ifs at h with hs
    · obtain ⟨w, _, h⟩ := orRefuse_next h
      obtain ⟨u, hu, h⟩ := orRefuse_next h
      cases h; exact .retired _ (.inl rfl) he (by simp [hs]) hu
    · exact effect_reject rfl (by simp) h
  | skipByte =>
    refine effect_ifInit rfl h fun he h => ?_
    split_ifs at h with hs
    · exact effect_reject rfl (by simp) h
    · exact effect_reject rfl (by simp) h
    · obtain ⟨u, hu, h⟩ := orRefuse_next h
      cases h; exact .retired _ (.inr rfl) he hs hu
  | send a b n =>
    refine effect_ifInit rfl h fun he h => effect_ifNotBusy rfl h fun hb h => ?_
    split_ifs at h with hn
    · exact effect_reject rfl (by simp) h
    · rw [start_eq] at h; cases h
      have hc : 6 + n.toNat ≤ s.params.txcap := by unfold Params.txcap; omega
      have h6 : (headerBytes a b n.toNat).length ≤ s.params.txcap := by
        have : (headerBytes a b n.toNat).length = 6 := rfl
        omega
      exact .started (headerBytes a b n.toNat) _ h6 (by omega) hc (.inl ⟨a, b, n, rfl⟩) he hb
  | sendRaw n =>
    refine effect_ifInit rfl h fun he h => effect_ifNotBusy rfl h fun hb h => ?_
    split_ifs at h with hn
    · exact effect_reject rfl (by simp) h
    · rw [start_eq] at h; cases h
      exact .started [] n.toNat (Nat.zero_le _) (by omega) (by omega) (.inr ⟨rfl, n, rfl⟩) he hb
  | encodeFrame a b n =>
    refine effect_ifInit rfl h fun he h => effect_ifNotBusy rfl h fun hb h => ?_
    split_ifs at h with hn
    · exact effect_reject rfl (by simp) h
    · cases h
      have h6 : 0 + (headerBytes a b n.toNat).length ≤ s.params.txcap := by
        have : (headerBytes a b n.toNat).length = 6 := rfl
        unfold Params.txcap; omega
      exact .stored 0 _ h6 (.inr ⟨a, b, n, rfl⟩) he hb
  | txbufWrite a n =>
    refine effect_ifInit rfl h fun he h => effect_ifNotBusy rfl h fun hb h => ?_
    split_ifs at h with hn
    · exact effect_reject rfl (by simp) h
    · cases h
      exact .stored n.toNat [a] (by simp only [List.length_singleton]; omega) (.inl ⟨a, n, rfl⟩) he hb
  | recover =>
    refine effect_ifInit rfl h fun he h => ?_
    split_ifs at h with hs
    · rw [leaveFault_eq] at h; cases h; exact .recovered he hs
    · exact effect_reject rfl (by simp) h
  | occupancy => exact effect_ifInit rfl h fun _ h => by cases h; exact .answered _ rfl
  | faultCause => exact effect_ifInit rfl h fun _ h => by cases h; exact .answered _ rfl
  | reservedD => exact effect_reject rfl (by simp) h
  | reservedE => exact effect_reject rfl (by simp) h
  | reservedF => exact effect_reject rfl (by simp) h
  | rxErrOverrun fe pe _ _ =>
    cases h; exact effect_lineEvent (.inl rfl) fun he => .faulted _ rfl (by revert fe pe; decide) he
  | rxErrFraming pe _ _ =>
    cases h; exact effect_lineEvent (.inl rfl) fun he => .faulted _ rfl (by revert pe; decide) he
  | rxErrParity _ _ => cases h; exact effect_lineEvent (.inl rfl) fun he => .faulted _ rfl (by decide) he
  | rxAddrMatch d =>
    cases h
    exact effect_lineEvent (.inl rfl) fun he => effect_unlessFaulted (.inl rfl) fun hs => .addressed d he hs
  | rxAddrMismatch d =>
    cases h
    exact effect_lineEvent (.inl rfl) fun he => effect_unlessFaulted (.inl rfl) fun hs => .armed d he hs
  | rxData d =>
    cases h
    refine effect_lineEvent (.inl rfl) fun he => effect_unlessFaulted (.inl rfl) fun hs => ?_
    cases ha : s.af
    · rw [show dataChar d (clearOutputs s) = acceptAndPush d (clearOutputs s) by simp [dataChar, ha]]
      exact .collected d he hs ha
    · rw [show dataChar d (clearOutputs s) = clearOutputs s by simp [dataChar, ha]]
      exact .ignored (.inl rfl)
  | txEvent =>
    have h : execTxEvent s = .next t := h
    unfold execTxEvent at h
    split_ifs at h with h1 h2
    · simp only [Bool.and_eq_true] at h1
      by_cases hc : s.txPos < s.params.txcap
      · rw [txNext_eq (s := clearOutputs s) hc] at h; cases h
        exact .emitted h1.1 h1.2 h2 hc
      · rw [txNext_fault (s := clearOutputs s) (Nat.not_lt.1 hc)] at h; cases h
    · simp only [Bool.and_eq_true] at h1
      rw [txFinish_eq] at h; cases h
      exact .finished h1.1 h1.2 (Nat.not_lt.1 h2)
    · cases h; exact .ignored (.inr rfl)

end Sys2Proof.Machine
end

