-- ==== Sys2Proof/Laws/Inputs.lean ====
section
/-! SUPPORT. No operation reads the stimuli still to come (20_memory.md R48): it does the same on a state with other
stimuli. And a run of steps, one step at a time. -/

namespace Sys2Proof.Machine

/-- `s` with other stimuli to come. -/
def withInputs (x : List PortWord) (s : State) : State := { s with inputs := x }

/-- Change the next state, if there is one. -/
def mapNext (f : State → State) : Answer → Answer
  | .next t => .next (f t)
  | .fault r => .fault r
  | .refused r => .refused r

theorem withInputs_updateStatus (x) (s : State) : updateStatus (withInputs x s) = withInputs x (updateStatus s) := by
  unfold updateStatus
  rw [show detect (withInputs x s) = detect s from rfl, show (withInputs x s).status = s.status from rfl]
  split_ifs <;> rfl

theorem withInputs_acceptAndPush (x d) (s : State) : acceptAndPush d (withInputs x s) = withInputs x (acceptAndPush d s) := by
  unfold acceptAndPush push
  rw [show occupancy (withInputs x s) = occupancy s from rfl, show (withInputs x s).params = s.params from rfl]
  split_ifs
  · exact withInputs_updateStatus x { s with ring := Memory.write s.ring (ringIndex s.params s.wr) d, wr := (s.wr + 1) % s.params.cursorMod }
  · rfl

theorem withInputs_setDe (x l) (s : State) : setDe l (withInputs x s) = withInputs x (setDe l s) := by
  unfold setDe; rw [show (withInputs x s).de = s.de from rfl]; split_ifs <;> rfl

theorem withInputs_reject (x c) (s : State) : reject c (withInputs x s) = mapNext (withInputs x) (reject c s) := rfl

theorem withInputs_ifInit (x s a) (b) (h : a = mapNext (withInputs x) b) : ifInit (withInputs x s) a = mapNext (withInputs x) (ifInit s b) := by
  unfold ifInit; rw [show (withInputs x s).en = s.en from rfl]; split_ifs; exact h; rfl

theorem withInputs_ifNotBusy (x s a) (b) (h : a = mapNext (withInputs x) b) : ifNotBusy (withInputs x s) a = mapNext (withInputs x) (ifNotBusy s b) := by
  unfold ifNotBusy; rw [show (withInputs x s).txBusy = s.txBusy from rfl]; split_ifs; rfl; exact h

theorem withInputs_lineEvent (x f) (s : State) (h : ∀ u, f (withInputs x u) = withInputs x (f u)) : lineEvent f (withInputs x s) = withInputs x (lineEvent f s) := by
  unfold lineEvent; rw [show (withInputs x s).en = s.en from rfl, show clearOutputs (withInputs x s) = withInputs x (clearOutputs s) from rfl]
  split_ifs; exact h _; rfl

theorem withInputs_unlessFaulted (x f) (s : State) (h : ∀ u, f (withInputs x u) = withInputs x (f u)) : unlessFaulted f (withInputs x s) = withInputs x (unlessFaulted f s) := by
  unfold unlessFaulted; rw [show (withInputs x s).status = s.status from rfl]
  split_ifs; rfl; exact h _

theorem withInputs_advanceRead (x n) (s : State) : advanceRead n (withInputs x s) = (advanceRead n s).map (withInputs x) := by
  unfold advanceRead; rw [show occupancy (withInputs x s) = occupancy s from rfl]; split_ifs <;> rfl

theorem withInputs_emit (x i m) (s : State) : emitFromTxbuf i m (withInputs x s) = mapNext (withInputs x) (emitFromTxbuf i m s) := by
  unfold emitFromTxbuf fetchTxbuf; rw [show (withInputs x s).params = s.params from rfl]; split_ifs <;> rfl

theorem withInputs_andThen (x a f) (h : ∀ u, f (withInputs x u) = mapNext (withInputs x) (f u)) : andThen (mapNext (withInputs x) a) f = mapNext (withInputs x) (andThen a f) := by
  cases a; exact h _; rfl; rfl

theorem withInputs_start (x n) (s : State) : start n (withInputs x s) = mapNext (withInputs x) (start n s) := by
  unfold start
  rw [show ({ withInputs x s with txLen := n } : State) = withInputs x { s with txLen := n } from rfl, withInputs_setDe, withInputs_emit, withInputs_andThen]
  intro u; rfl
/-- An operation does the same whatever stimuli are still to come. -/
theorem exec_withInputs (i : Instr) (x) (s : State) : exec i (withInputs x s) = mapNext (withInputs x) (exec i s) := by
  have hc : clearOutputs (withInputs x s) = withInputs x (clearOutputs s) := rfl
  cases i with
  | nop => rfl
  | busInit =>
    show answerOk 0#17 { initialise (clearOutputs (withInputs x s)) with en := true, deOe := true } =
      mapNext (withInputs x) (answerOk 0#17 { initialise (clearOutputs s) with en := true, deOe := true })
    rw [initialise_eq, initialise_eq]; rfl
  | reset =>
    show Host.Outcome.next { initialise (clearOutputs (withInputs x s)) with en := false, deOe := false } =
      mapNext (withInputs x) (.next { initialise (clearOutputs s) with en := false, deOe := false })
    rw [initialise_eq, initialise_eq]; rfl
  | busStatus => rfl
  | currentFrame n =>
    refine withInputs_ifInit _ _ _ _ ?_
    rw [show (withInputs x s).status = s.status from rfl]
    split_ifs
    · rw [show peekWindow (withInputs x s) 0 6 = peekWindow s 0 6 from rfl, show peekWindow (withInputs x s) n.toNat 1 = peekWindow s n.toNat 1 from rfl]
      cases peekWindow s 0 6 with
      | none => rfl
      | some w =>
        simp only [orRefuse]
        split_ifs
        · rfl
        · cases peekWindow s n.toNat 1 <;> rfl
    · rfl
  | packetDone =>
    refine withInputs_ifInit _ _ _ _ ?_
    rw [show (withInputs x s).status = s.status from rfl, hc]
    split_ifs
    · rw [show peekWindow (withInputs x s) 0 6 = peekWindow s 0 6 from rfl]
      cases peekWindow s 0 6 with
      | none => rfl
      | some w =>
        simp only [orRefuse, withInputs_advanceRead]
        cases advanceRead (frameLengthOf w) (clearOutputs s) with
        | none => rfl
        | some u => simp only [Option.map, withInputs_updateStatus]; rfl
    · rfl
  | skipByte =>
    refine withInputs_ifInit _ _ _ _ ?_
    rw [show (withInputs x s).status = s.status from rfl, hc, show occupancy (withInputs x s) = occupancy s from rfl, withInputs_advanceRead]
    split_ifs
    · rfl
    · rfl
    · cases advanceRead 1 (clearOutputs s) with
        | none => rfl
        | some u => simp only [Option.map, orRefuse, withInputs_updateStatus]; rfl
  | send a b n =>
    refine withInputs_ifInit _ _ _ _ (withInputs_ifNotBusy _ _ _ _ ?_)
    rw [show (withInputs x s).params = s.params from rfl]; split_ifs
    · rfl
    · rw [show writeHeader a b n.toNat (clearOutputs (withInputs x s)) = withInputs x (writeHeader a b n.toNat (clearOutputs s)) from rfl, withInputs_start, withInputs_andThen]
      intro u; rfl
  | sendRaw n =>
    refine withInputs_ifInit _ _ _ _ (withInputs_ifNotBusy _ _ _ _ ?_)
    rw [show (withInputs x s).params = s.params from rfl]; split_ifs
    · rfl
    · rw [hc, withInputs_start, withInputs_andThen]
      intro u; rfl
  | encodeFrame a b n =>
    refine withInputs_ifInit _ _ _ _ (withInputs_ifNotBusy _ _ _ _ ?_)
    rw [show (withInputs x s).params = s.params from rfl]; split_ifs <;> rfl
  | txbufWrite a n =>
    refine withInputs_ifInit _ _ _ _ (withInputs_ifNotBusy _ _ _ _ ?_)
    rw [show (withInputs x s).params = s.params from rfl]; split_ifs <;> rfl
  | recover =>
    refine withInputs_ifInit _ _ _ _ ?_
    rw [show (withInputs x s).status = s.status from rfl, leaveFault_eq, leaveFault_eq]; split_ifs <;> rfl
  | occupancy => exact withInputs_ifInit _ _ _ _ rfl
  | faultCause => exact withInputs_ifInit _ _ _ _ rfl
  | reservedD => rfl
  | reservedE => rfl
  | reservedF => rfl
  | rxErrOverrun _ _ _ _ => exact congrArg Host.Outcome.next (withInputs_lineEvent x _ s fun _ => rfl)
  | rxErrFraming _ _ _ => exact congrArg Host.Outcome.next (withInputs_lineEvent x _ s fun _ => rfl)
  | rxErrParity _ _ => exact congrArg Host.Outcome.next (withInputs_lineEvent x _ s fun _ => rfl)
  | rxAddrMatch d => exact congrArg Host.Outcome.next (withInputs_lineEvent x _ s fun _ => withInputs_unlessFaulted x _ _ fun u => withInputs_acceptAndPush x d (disableAddressFilter u))
  | rxAddrMismatch _ => exact congrArg Host.Outcome.next (withInputs_lineEvent x _ s fun _ => withInputs_unlessFaulted x _ _ fun _ => rfl)
  | rxData d => exact congrArg Host.Outcome.next (withInputs_lineEvent x _ s fun _ => withInputs_unlessFaulted x _ _ fun u => by
      unfold dataChar; rw [show (withInputs x u).af = u.af from rfl]; split_ifs; rfl; exact withInputs_acceptAndPush x d u)
  | txEvent =>
    show ite _ _ _ = mapNext _ (ite _ _ _)
    rw [show (withInputs x s).en = s.en from rfl, show (withInputs x s).txBusy = s.txBusy from rfl, show (withInputs x s).txPos = s.txPos from rfl, show (withInputs x s).txLen = s.txLen from rfl, hc]
    split_ifs
    · unfold txNext; rw [show (withInputs x (clearOutputs s)).txPos = (clearOutputs s).txPos from rfl, withInputs_emit, withInputs_andThen]; intro u; rfl
    · unfold txFinish; rw [withInputs_setDe]; rfl
    · rfl

theorem mapNext_eq_next {f a t} (h : mapNext f a = .next t) : ∃ u, a = .next u ∧ t = f u := by
  cases a with
  | next u => exact ⟨u, rfl, by simpa [mapNext] using h.symm⟩
  | fault _ => cases h
  | refused _ => cases h

theorem execAll_withInputs (is : List Instr) (x : List PortWord) (s : State) :
    execAll is (withInputs x s) = mapNext (withInputs x) (execAll is s) := by
  induction is generalizing s with
  | nil => rfl
  | cons i is ih =>
    show andThen (exec i (withInputs x s)) (execAll is) = _
    rw [exec_withInputs]
    exact withInputs_andThen x _ _ ih

/-- One step of a run. -/
theorem run_succ (M : Host.Core) (n : Nat) (s t : M.State) (h : M.step s = .next t) :
    Host.Core.run M (n + 1) s = Host.Core.run M n t := by
  simp only [Host.Core.run, h]

end Sys2Proof.Machine
end

