-- ==== Sys2Proof/Laws/Words.lean ====
section
/-! SUPPORT. The fields of the port words as arithmetic on the word's value, and what a word built from fields gives
back (30_encoding.md R65, R66, R68). -/

namespace Sys2Proof

theorem toNat_append {n m : Nat} (x : BitVec n) (y : BitVec m) : (x ++ y).toNat = x.toNat * 2 ^ m + y.toNat := by
  rw [BitVec.toNat_append, ← Nat.shiftLeft_add_eq_or_of_lt y.isLt, Nat.shiftLeft_eq]

/-! ### The command word -/

theorem cmdOp_toNat (w : BitVec 36) : (cmdOp w).toNat = w.toNat / 2 ^ 32 := by
  have := w.isLt
  simp [cmdOp, BitVec.extractLsb'_toNat, Nat.shiftRight_eq_div_pow]; omega

theorem cmdA_eq (w : BitVec 36) : cmdA w = BitVec.ofNat 8 (w.toNat / 2 ^ 24) := by
  apply BitVec.eq_of_toNat_eq; simp [cmdA, BitVec.extractLsb'_toNat, Nat.shiftRight_eq_div_pow]

theorem cmdB_eq (w : BitVec 36) : cmdB w = BitVec.ofNat 8 (w.toNat / 2 ^ 16) := by
  apply BitVec.eq_of_toNat_eq; simp [cmdB, BitVec.extractLsb'_toNat, Nat.shiftRight_eq_div_pow]

theorem cmdN_eq (w : BitVec 36) : cmdN w = BitVec.ofNat 16 w.toNat := by
  apply BitVec.eq_of_toNat_eq; simp [cmdN, BitVec.extractLsb'_toNat]

theorem cmdWord_toNat (op : BitVec 4) (a b : Byte) (n : BitVec 16) :
    (cmdWord op a b n).toNat = op.toNat * 2 ^ 32 + a.toNat * 2 ^ 24 + b.toNat * 2 ^ 16 + n.toNat := by
  show (op ++ a ++ b ++ n : BitVec (4 + 8 + 8 + 16)).toNat = _
  rw [toNat_append, toNat_append, toNat_append]; omega

@[simp] theorem cmdOp_cmdWord (op : BitVec 4) (a b : Byte) (n : BitVec 16) : cmdOp (cmdWord op a b n) = op := by
  apply BitVec.eq_of_toNat_eq; rw [cmdOp_toNat, cmdWord_toNat]
  have := a.isLt; have := b.isLt; have := n.isLt; omega

@[simp] theorem cmdA_cmdWord (op : BitVec 4) (a b : Byte) (n : BitVec 16) : cmdA (cmdWord op a b n) = a := by
  apply BitVec.eq_of_toNat_eq; rw [cmdA_eq, cmdWord_toNat, BitVec.toNat_ofNat]
  have := a.isLt; have := b.isLt; have := n.isLt; omega

@[simp] theorem cmdB_cmdWord (op : BitVec 4) (a b : Byte) (n : BitVec 16) : cmdB (cmdWord op a b n) = b := by
  apply BitVec.eq_of_toNat_eq; rw [cmdB_eq, cmdWord_toNat, BitVec.toNat_ofNat]
  have := a.isLt; have := b.isLt; have := n.isLt; omega

@[simp] theorem cmdN_cmdWord (op : BitVec 4) (a b : Byte) (n : BitVec 16) : cmdN (cmdWord op a b n) = n := by
  apply BitVec.eq_of_toNat_eq; rw [cmdN_eq, cmdWord_toNat, BitVec.toNat_ofNat]
  have := a.isLt; have := b.isLt; have := n.isLt; omega

/-- A command word is built from its fields: no bit lies outside them. -/
theorem cmdWord_fields (w : BitVec 36) : cmdWord (cmdOp w) (cmdA w) (cmdB w) (cmdN w) = w := by
  apply BitVec.eq_of_toNat_eq; rw [cmdWord_toNat, cmdOp_toNat, cmdA_eq, cmdB_eq, cmdN_eq]
  simp only [BitVec.toNat_ofNat]; have := w.isLt; omega

/-! ### The received-character word -/

theorem rxWord_toNat (dor fe pe m : Bool) (data : Byte) : (rxWord dor fe pe m data).toNat =
    dor.toNat * 2048 + fe.toNat * 1024 + pe.toNat * 512 + m.toNat * 256 + data.toNat := by
  show (BitVec.ofBool dor ++ BitVec.ofBool fe ++ BitVec.ofBool pe ++ BitVec.ofBool m ++ data :
    BitVec (1 + 1 + 1 + 1 + 8)).toNat = _
  rw [toNat_append, toNat_append, toNat_append, toNat_append]; simp only [BitVec.toNat_ofBool]; omega

theorem getLsbD_eq_decide {n : Nat} (w : BitVec n) (i : Nat) : w.getLsbD i = decide (w.toNat / 2 ^ i % 2 = 1) := by
  rw [BitVec.getLsbD, Nat.testBit_eq_decide_div_mod_eq]

/-- Bit `i` of a number is the flag of which it is the value at that place. -/
theorem decide_bit {x : Nat} {b : Bool} (h : x % 2 = b.toNat) : decide (x % 2 = 1) = b := by
  cases b <;> simp [h]

@[simp] theorem rxDor_rxWord (dor fe pe m : Bool) (data : Byte) : rxDor (rxWord dor fe pe m data) = dor := by
  have := data.isLt; have := dor.toNat_lt; have := fe.toNat_lt; have := pe.toNat_lt; have := m.toNat_lt
  rw [rxDor, getLsbD_eq_decide]; apply decide_bit; rw [rxWord_toNat]; omega

@[simp] theorem rxFe_rxWord (dor fe pe m : Bool) (data : Byte) : rxFe (rxWord dor fe pe m data) = fe := by
  have := data.isLt; have := dor.toNat_lt; have := fe.toNat_lt; have := pe.toNat_lt; have := m.toNat_lt
  rw [rxFe, getLsbD_eq_decide]; apply decide_bit; rw [rxWord_toNat]; omega

@[simp] theorem rxPe_rxWord (dor fe pe m : Bool) (data : Byte) : rxPe (rxWord dor fe pe m data) = pe := by
  have := data.isLt; have := dor.toNat_lt; have := fe.toNat_lt; have := pe.toNat_lt; have := m.toNat_lt
  rw [rxPe, getLsbD_eq_decide]; apply decide_bit; rw [rxWord_toNat]; omega

@[simp] theorem rxM_rxWord (dor fe pe m : Bool) (data : Byte) : rxM (rxWord dor fe pe m data) = m := by
  have := data.isLt; have := dor.toNat_lt; have := fe.toNat_lt; have := pe.toNat_lt; have := m.toNat_lt
  rw [rxM, getLsbD_eq_decide]; apply decide_bit; rw [rxWord_toNat]; omega

@[simp] theorem rxDataBits_rxWord (dor fe pe m : Bool) (data : Byte) :
    rxDataBits (rxWord dor fe pe m data) = data := by
  apply BitVec.eq_of_toNat_eq; simp [rxDataBits, BitVec.extractLsb'_toNat, rxWord_toNat]; omega

/-- A received-character word is built from its fields. -/
theorem rxWord_fields (w : BitVec 12) : rxWord (rxDor w) (rxFe w) (rxPe w) (rxM w) (rxDataBits w) = w := by
  apply BitVec.eq_of_toNat_eq; rw [rxWord_toNat]
  simp only [rxDor, rxFe, rxPe, rxM, rxDataBits, getLsbD_eq_decide, BitVec.extractLsb'_toNat, Nat.shiftRight_zero]
  have hb : ∀ x : Nat, (decide (x % 2 = 1)).toNat = x % 2 := fun x => by
    rcases Nat.mod_two_eq_zero_or_one x with h | h <;> simp [h]
  simp only [hb]
  have := w.isLt; omega

/-! ### The output words -/

theorem txWord_toNat (m : Bool) (data : Byte) : (txWord m data).toNat = m.toNat * 256 + data.toNat := by
  show (BitVec.ofBool m ++ data : BitVec (1 + 8)).toNat = _
  rw [toNat_append]; simp only [BitVec.toNat_ofBool]; omega

theorem rspWord_toNat (c : Machine.RspCode) (data : BitVec 17) :
    (Machine.rspWord c data).toNat = c.code.toNat * 2 ^ 17 + data.toNat := by
  show (c.code ++ data : BitVec (4 + 17)).toNat = _
  rw [toNat_append]

end Sys2Proof
end

