-- ==== Sys2Proof/Laws/PerInstr.lean ====
section
/-! SUPPORT. Statements made per operation. `RoundTrip`: decoding the word of a well-formed operation gives the
operation back. -/

namespace Sys2Proof.Laws.RoundTrip

/-- Decoding the word of `i` gives `i` back, for every instance at which `i` is well formed. -/
def Statement (i : Instr) : Prop := ∀ p : Params, i.wf p = true → decode p (encode i) = i

theorem nop : Statement .nop := fun p h => by
  simp [encode, decode, decodeCmd]

theorem busInit : Statement (.busInit) := fun p h => by
  simp [encode, decode, decodeCmd]

theorem busStatus : Statement (.busStatus) := fun p h => by
  simp [encode, decode, decodeCmd]

theorem currentFrame (n : BitVec 16) : Statement (.currentFrame n) := fun p h => by
  simp [encode, decode, decodeCmd]

theorem packetDone : Statement (.packetDone) := fun p h => by
  simp [encode, decode, decodeCmd]

theorem skipByte : Statement (.skipByte) := fun p h => by
  simp [encode, decode, decodeCmd]

theorem send (a b : Byte) (n : BitVec 16) : Statement (.send a b n) := fun p h => by
  simp [encode, decode, decodeCmd]

theorem sendRaw (n : BitVec 16) : Statement (.sendRaw n) := fun p h => by
  simp [encode, decode, decodeCmd]

theorem encodeFrame (a b : Byte) (n : BitVec 16) : Statement (.encodeFrame a b n) := fun p h => by
  simp [encode, decode, decodeCmd]

theorem recover : Statement (.recover) := fun p h => by
  simp [encode, decode, decodeCmd]

theorem occupancy : Statement (.occupancy) := fun p h => by
  simp [encode, decode, decodeCmd]

theorem txbufWrite (a : Byte) (n : BitVec 16) : Statement (.txbufWrite a n) := fun p h => by
  simp [encode, decode, decodeCmd]

theorem faultCause : Statement (.faultCause) := fun p h => by
  simp [encode, decode, decodeCmd]

theorem reservedD : Statement (.reservedD) := fun p h => by
  simp [encode, decode, decodeCmd]

theorem reservedE : Statement (.reservedE) := fun p h => by
  simp [encode, decode, decodeCmd]

theorem reservedF : Statement (.reservedF) := fun p h => by
  simp [encode, decode, decodeCmd]

theorem rxErrOverrun (fe pe m : Bool) (data : Byte) : Statement (.rxErrOverrun fe pe m data) := fun p h => by
  simp [encode, decode, decodeRx]

theorem rxErrFraming (pe m : Bool) (data : Byte) : Statement (.rxErrFraming pe m data) := fun p h => by
  simp [encode, decode, decodeRx]

theorem rxErrParity (m : Bool) (data : Byte) : Statement (.rxErrParity m data) := fun p h => by
  simp [encode, decode, decodeRx]

theorem rxAddrMatch (data : Byte) : Statement (.rxAddrMatch data) := fun p h => by
  have h : accept p data = true := h
  simp [encode, decode, decodeRx, h]

theorem rxAddrMismatch (data : Byte) : Statement (.rxAddrMismatch data) := fun p h => by
  have h : (!accept p data) = true := h
  simp only [Bool.not_eq_eq_eq_not, Bool.not_true] at h
  simp [encode, decode, decodeRx, h]

theorem rxData (data : Byte) : Statement (.rxData data) := fun p h => by
  simp [encode, decode, decodeRx]

theorem txEvent : Statement (.txEvent) := fun p h => by
  rfl

theorem reset : Statement (.reset) := fun p h => by
  rfl

end Sys2Proof.Laws.RoundTrip
end

