-- ==== Sys2Proof/Machine/TextForm.lean ====
section
/-! DEFINITION. The textual form of a step and of its results (30_encoding.md R70): one line a step, bytes as two
hexadecimal digits, numbers in decimal (log 10). -/

namespace Sys2Proof.Machine

/-- One hexadecimal digit. -/
def hexDigit (d : Nat) : String :=
  (["0", "1", "2", "3", "4", "5", "6", "7", "8", "9", "A", "B", "C", "D", "E", "F"] : List String).getD d "?"

/-- A byte as two hexadecimal digits. -/
def byteText (b : Byte) : String := hexDigit (b.toNat / 16) ++ hexDigit (b.toNat % 16)

/-- A number in decimal digits; `fuel` bounds how many. -/
def decimalText : Nat → Nat → String
  | 0, _ => ""
  | fuel + 1, n => if n < 10 then hexDigit n else decimalText fuel (n / 10) ++ hexDigit (n % 10)

/-- A flag word of a received character, written when the bit is set. -/
def flagText (set : Bool) (word : String) : String := if set then " " ++ word else ""

/-- `rx <byte> [A] [DOR] [FE] [PE]` (R70). -/
def rxText (dor fe pe m : Bool) (data : Byte) : String :=
  "rx " ++ byteText data ++ flagText m "A" ++ flagText dor "DOR" ++ flagText fe "FE" ++ flagText pe "PE"

/-- `n=<number>` (R70). -/
def nText (n : BitVec 16) : String := " n=" ++ decimalText 5 n.toNat

/-- The line of a step (R70). A reserved code has no mnemonic in the source; its row's name stands for it. -/
def stepText : Instr → String
  | .nop => "host NOP"
  | .busInit => "host BUS_INIT"
  | .busStatus => "host BUS_STATUS"
  | .currentFrame n => "host CURRENT_FRAME" ++ nText n
  | .packetDone => "host PACKET_DONE"
  | .skipByte => "host SKIP_BYTE"
  | .send a b n => "host SEND a=" ++ byteText a ++ " b=" ++ byteText b ++ nText n
  | .sendRaw n => "host SEND_RAW" ++ nText n
  | .encodeFrame a b n => "host ENCODE_FRAME a=" ++ byteText a ++ " b=" ++ byteText b ++ nText n
  | .recover => "host RECOVER"
  | .occupancy => "host OCCUPANCY"
  | .txbufWrite a n => "host TXBUF_WRITE a=" ++ byteText a ++ nText n
  | .faultCause => "host FAULT_CAUSE"
  | .reservedD => "host RESERVED_D"
  | .reservedE => "host RESERVED_E"
  | .reservedF => "host RESERVED_F"
  | .rxErrOverrun fe pe m data => rxText true fe pe m data
  | .rxErrFraming pe m data => rxText false true pe m data
  | .rxErrParity m data => rxText false false true m data
  | .rxAddrMatch data => rxText false false false true data
  | .rxAddrMismatch data => rxText false false false true data
  | .rxData data => rxText false false false false data
  | .txEvent => "txev"
  | .reset => "reset"

/-- An emitted character: `tx 01 A` (marked) or `tx 70` (R70). -/
def txText (w : BitVec 9) : String := "tx " ++ byteText (w.extractLsb' 0 8) ++ flagText (w.getLsbD 8) "A"

/-- The name of a result code (R160). -/
def codeText (code : Nat) : String :=
  (["OK", "ERR_NOT_INIT", "ERR_STATE", "ERR_BUSY", "ERR_OVERSIZE", "ERR_RANGE", "ERR_BADCMD"] : List String).getD code "?"

/-- What is written after `->` for a response word: `OK` with its data, or the name of the error (R70). The datum of
`CURRENT_FRAME` is a byte, every other one a number. -/
def resultText (i : Instr) (w : BitVec 21) : String :=
  let code := w.toNat / 2 ^ 17
  let data := w.toNat % 2 ^ 17
  if code = 0 then
    match i with
    | .currentFrame _ => "OK " ++ byteText (BitVec.ofNat 8 data)
    | _ => "OK " ++ decimalText 6 data
  else codeText code

end Sys2Proof.Machine
end

