-- ==== Sys2Proof/Tests/Slice0.lean ====
section
/-! SUPPORT. Tests. The expected words, states and texts are those of 30_encoding.md and 95_test_vectors.md (`V<n>`,
`Program <letter>`); the witnesses meet the hypotheses of the statements of Certificates/Slice0/Obligations.lean, one
for each clause. -/

namespace Sys2Proof.Tests

open Sys2Proof.Machine Sys2Proof.Claims

/-! ### Well-formedness: each check refuses an ill-formed term -/

theorem test_wf_match_refuses_foreign : (Instr.rxAddrMatch 0x02).wf Params.reference = false := by decide
theorem test_wf_match_accepts_own : (Instr.rxAddrMatch 0x01).wf Params.reference = true := by decide
theorem test_wf_mismatch_refuses_own : (Instr.rxAddrMismatch 0x01).wf Params.reference = false := by decide
theorem test_wf_mismatch_refuses_group :
    (Instr.rxAddrMismatch 0xFF).wf { Params.reference with groupAddrs := [0xFF] } = false := by decide
theorem test_wf_params_k_low : ¬ { Params.reference with k := 2, maxPayload := 0 }.WF := by decide
theorem test_wf_params_k_high : ¬ { Params.reference with k := 17 }.WF := by decide
theorem test_wf_params_payload : ¬ { Params.reference with maxPayload := 27 }.WF := by decide
theorem test_wf_params_group_order : ¬ { Params.reference with groupAddrs := [0xFF, 0x10] }.WF := by decide
theorem test_wf_params_group_repeat : ¬ { Params.reference with groupAddrs := [0x10, 0x10] }.WF := by decide

/-! ### Decoding: words written out from 30_encoding.md R65 to R67 and 95_test_vectors.md -/

theorem test_decode_nop : decodeTableWord 40 0x000000000 = some .nop := by decide
theorem test_decode_busInit : decodeTableWord 40 0x1FFFFFFFF = some .busInit := by decide
theorem test_decode_busStatus : decodeTableWord 40 0x200000000 = some .busStatus := by decide
theorem test_decode_currentFrame : decodeTableWord 40 0x30000000A = some (.currentFrame 10) := by decide
theorem test_decode_packetDone : decodeTableWord 40 0x400000000 = some .packetDone := by decide
theorem test_decode_skipByte : decodeTableWord 40 0x500000000 = some .skipByte := by decide
theorem test_decode_send : decodeTableWord 40 0x602010000 = some (.send 0x02 0x01 0) := by decide
theorem test_decode_sendRaw : decodeTableWord 40 0x700000021 = some (.sendRaw 33) := by decide
theorem test_decode_encodeFrame : decodeTableWord 40 0x802010000 = some (.encodeFrame 0x02 0x01 0) := by decide
theorem test_decode_recover : decodeTableWord 40 0x900000000 = some .recover := by decide
theorem test_decode_occupancy : decodeTableWord 40 0xA00000000 = some .occupancy := by decide
theorem test_decode_txbufWrite : decodeTableWord 40 0xBAA00001F = some (.txbufWrite 0xAA 31) := by decide
theorem test_decode_faultCause : decodeTableWord 40 0xC00000000 = some .faultCause := by decide
theorem test_decode_reservedD : decodeTableWord 40 0xD00000000 = some .reservedD := by decide
theorem test_decode_reservedE : decodeTableWord 40 0xE12345678 = some .reservedE := by decide
theorem test_decode_reservedF : decodeTableWord 40 0xF00000000 = some .reservedF := by decide
theorem test_decode_rxErrOverrun : decodeTableWord 16 0xA00 = some (.rxErrOverrun false true false 0x00) := by decide
theorem test_decode_rxErrFraming : decodeTableWord 16 0x455 = some (.rxErrFraming false false 0x55) := by decide
theorem test_decode_rxErrParity : decodeTableWord 16 0x201 = some (.rxErrParity false 0x01) := by decide
theorem test_decode_rxAddrMatch : decodeTableWord 16 0x101 = some (.rxAddrMatch 0x01) := by decide
theorem test_decode_rxAddrMismatch : decodeTableWord 16 0x102 = some (.rxAddrMismatch 0x02) := by decide
theorem test_decode_rxData : decodeTableWord 16 0x070 = some (.rxData 0x70) := by decide
theorem test_decode_txEvent : decodeTableWord 8 1 = some .txEvent := by decide
theorem test_decode_reset : decode Params.reference .reset = .reset := by decide
theorem test_decode_group_address :
    decode { Params.reference with groupAddrs := [0xFF] } (.rx 0x1FF) = .rxAddrMatch 0xFF := by decide

/-- The decoder rejects by name what is no port word. -/
theorem test_decode_rejects :
    decodeRaw Params.reference 8 0 = .error .noPulse ∧
    decodeRaw Params.reference 8 2 = .error (.wordTooWide 8 2) ∧
    decodeRaw Params.reference 16 0x1000 = .error (.wordTooWide 16 0x1000) ∧
    decodeRaw Params.reference 40 0x1000000000 = .error (.wordTooWide 40 0x1000000000) ∧
    decodeRaw Params.reference 48 0 = .error (.noSuchPort 48) := ⟨rfl, rfl, rfl, rfl, rfl⟩

theorem test_encode_send : encode (.send 0x01 0x00 4) = .cmd 0x601000004 := by decide
theorem test_encode_rx : encode (.rxErrFraming false true 0x01) = .rx 0x501 := by decide

/-! ### The textual form (R70) -/

theorem test_text_steps :
    stepText (.send 0x01 0x00 27) = "host SEND a=01 b=00 n=27" ∧
    stepText (.rxErrOverrun false true false 0x00) = "rx 00 DOR PE" ∧
    stepText (.rxAddrMatch 0x01) = "rx 01 A" ∧ stepText .txEvent = "txev" ∧ stepText .reset = "reset" := by decide
theorem test_text_results :
    resultText .busStatus 0x000001 = "OK 1" ∧ resultText .occupancy 0x00000A = "OK 10" ∧
    resultText (.currentFrame 6) 0x000070 = "OK 70" ∧ resultText .recover 0x040000 = "ERR_STATE" := by decide
theorem test_text_tx : txText 0x101 = "tx 01 A" ∧ txText 0x070 = "tx 70" := by decide

/-! ### The codec -/

/-- V1, as corrected by 90_conflicts.md C1. -/
theorem test_codec_ping : encodedFrame Params.reference 0x01 0x00 [0x70, 0x69, 0x6E, 0x67] =
    some [0x01, 0x00, 0x04, 0xFF, 0x00, 0x04, 0x70, 0x69, 0x6E, 0x67] := by decide
/-- V2. -/
theorem test_codec_printed_literal : validateHeader [0x01, 0x00, 0xFF, 0xFF, 0x00, 0x04] = .mismatch := by decide

/-! ### States -/

/-- The state after `reset` and `BUS_INIT` (95_test_vectors.md section 0). -/
def fresh : State := { State.reset with en := true, deOe := true }

/-- The ping frame `P` of 95_test_vectors.md. -/
def ping : List Byte := [0x01, 0x00, 0x04, 0xFF, 0x00, 0x04, 0x70, 0x69, 0x6E, 0x67]

/-- The frame `Q` of Program D. -/
def frameQ : List Byte := [0x01, 0x02, 0x02, 0xFF, 0x00, 0x00]

/-- `fresh` with these bytes buffered from index 0, this status and this filter mode. -/
def holding (bytes : List Byte) (status : Status) (af : Bool) : State :=
  { fresh with ring := Memory.writeList [] 0 bytes, wr := bytes.length, status := status, af := af }

/-- A complete frame is pending. -/
def pending : State := holding ping .completeFrame true

/-- The full ring of Program C: a valid header of length 31 and 26 bytes. -/
def full : State :=
  holding ([0x01, 0x00, 0x1F, 0xFF, 0x00, 0x1F] ++ List.replicate 26 0x00) .idle false

/-- V14: `Faulted` by a framing error, two bytes buffered. -/
def faulty : State := { holding [0x01, 0x00] .faulted true with faultCause := 0b0010 }

/-- A send of `TXBUF[0..n-1]` is in flight, `pos` bytes emitted. -/
def sending (bytes : List Byte) (pos : Nat) : State :=
  { fresh with
    txbuf := Memory.writeList [] 0 bytes, txBusy := true, txPos := pos, txLen := bytes.length, de := true, deOe := true }

/-- A field of the next state; none at a stop. -/
def after {α : Type} (i : Instr) (s : State) (f : State → α) : Option α :=
  match exec i s with
  | .next t => some (f t)
  | .fault _ => none
  | .refused _ => none

/-! ### One step of each operation -/

/-- V16. -/
theorem test_nop : after .nop State.reset State.rsp = some (some 0x000000) := by decide
theorem test_busInit : after .busInit State.reset (fun t => (t.rsp, t.en, t.deOe)) =
    some (some 0x000000, true, true) := by decide
/-- V15: `BUS_INIT` during a send. -/
theorem test_busInit_aborts_send : after .busInit (sending frameQ 3) (fun t => (t.txBusy, t.txPos, t.de, t.lineLog)) =
    some (false, 0, false, [.de false]) := by decide
theorem test_busStatus : after .busStatus faulty State.rsp = some (some 0x000003) := by decide
/-- V12. -/
theorem test_currentFrame : after (.currentFrame 9) pending State.rsp = some (some 0x000067) := by decide
theorem test_currentFrame_range : after (.currentFrame 10) pending State.rsp = some (some 0x0A0000) := by decide
/-- Program D, step 38: the next frame is complete at once. -/
theorem test_packetDone :
    after .packetDone { holding (ping ++ [0x01] ++ ping ++ frameQ) .completeFrame true with rd := 11 }
      (fun t => (t.rsp, t.rd, t.status)) = some (some 0x000000, 21, .completeFrame) := by decide
/-- Program A, step 31. -/
theorem test_packetDone_state : after .packetDone fresh State.rsp = some (some 0x040000) := by decide
/-- Program D, step 36: the filter is armed. -/
theorem test_skipByte :
    after .skipByte { holding (ping ++ [0x01] ++ ping ++ frameQ) .headerChecksumMismatch false with rd := 10 }
      (fun t => (t.rd, t.status, t.af)) = some (11, .completeFrame, true) := by decide
/-- V12: a good frame is destroyed. -/
theorem test_skipByte_breaks_frame : after .skipByte pending (fun t => (t.rd, t.status)) =
    some (1, .headerChecksumMismatch) := by decide
/-- Program B, step 5. -/
theorem test_send : after (.send 0x01 0x00 4) fresh (fun t => (t.tx, t.txLen, t.txbuf)) =
    some (some 0x101, 10, [(0, 0x01), (1, 0x00), (2, 0x04), (3, 0xFF), (4, 0x00), (5, 0x04)]) := by decide
/-- V15: busy is tested before oversize. -/
theorem test_send_busy : after (.send 0x01 0x00 27) (sending frameQ 1) State.rsp = some (some 0x060000) := by decide
/-- V15. -/
theorem test_sendRaw : after (.sendRaw 1) { fresh with txbuf := [(0, 0x09)] } (fun t => (t.tx, t.txLen, t.lineLog)) =
    some (some 0x109, 1, [.de true, .ch 0x09 true]) := by decide
theorem test_sendRaw_range : after (.sendRaw 33) fresh State.rsp = some (some 0x0A0000) := by decide
theorem test_encodeFrame : after (.encodeFrame 0x02 0x01 0) fresh (fun t => (t.tx, t.txbuf)) =
    some (none, [(0, 0x02), (1, 0x01), (2, 0x02), (3, 0xFF), (4, 0x00), (5, 0x00)]) := by decide
theorem test_encodeFrame_oversize : after (.encodeFrame 0x02 0x01 27) fresh State.rsp = some (some 0x080000) := by
  decide
/-- V14. -/
theorem test_recover : after .recover faulty (fun t => (t.rd, t.wr, t.faultCause, t.status)) =
    some (2, 2, 0, .idle) := by decide
theorem test_recover_state : after .recover fresh State.rsp = some (some 0x040000) := by decide
/-- R91: the write cursor has gone round, the difference is taken modulo 64. -/
theorem test_occupancy : after .occupancy { fresh with wr := 0x0A, rd := 0x3E } State.rsp = some (some 0x00000C) := by
  decide
theorem test_txbufWrite : after (.txbufWrite 0xAA 31) fresh State.txbuf = some [(31, 0xAA)] := by decide
theorem test_txbufWrite_range : after (.txbufWrite 0xAA 32) fresh (fun t => (t.rsp, t.txbuf)) =
    some (some 0x0A0000, []) := by decide
theorem test_faultCause : after .faultCause { faulty with faultCause := 0b0111 } State.rsp =
    some (some 0x000007) := by decide
/-- V16: before the `en` test. -/
theorem test_reservedD : after .reservedD State.reset State.rsp = some (some 0x0C0000) := by decide
theorem test_reservedE : after .reservedE State.reset State.rsp = some (some 0x0C0000) := by decide
theorem test_reservedF : after .reservedF State.reset State.rsp = some (some 0x0C0000) := by decide
/-- V14: causes accumulate. -/
theorem test_rxErrOverrun : after (.rxErrOverrun false true false 0x00) faulty State.faultCause = some 0b0111 := by
  decide
theorem test_rxErrFraming : after (.rxErrFraming false false 0x55) (holding [0x01, 0x00] .idle false)
    (fun t => (t.faultCause, t.status, t.af, t.wr)) = some (0b0010, .faulted, true, 2) := by decide
theorem test_rxErrParity : after (.rxErrParity false 0x01) fresh (fun t => (t.faultCause, t.status)) =
    some (0b0100, .faulted) := by decide
/-- V13. -/
theorem test_rxAddrMatch : after (.rxAddrMatch 0x01) fresh (fun t => (t.af, t.ring, t.wr)) =
    some (false, [(0, 0x01)], 1) := by decide
/-- Program D, step 11: behind a pending frame the filter is armed again. -/
theorem test_rxAddrMatch_pending : after (.rxAddrMatch 0x01) pending (fun t => (t.wr, t.status, t.af)) =
    some (11, .completeFrame, true) := by decide
theorem test_rxAddrMismatch : after (.rxAddrMismatch 0x02) (holding [0x01, 0x00, 0x04] .idle false)
    (fun t => (t.af, t.wr)) = some (true, 3) := by decide
/-- V1: the last character of the ping frame. -/
theorem test_rxData : after (.rxData 0x67) (holding (ping.take 9) .idle false) (fun t => (t.status, t.af, t.wr)) =
    some (.completeFrame, true, 10) := by decide
/-- Program C, step 33. -/
theorem test_rxData_overflow : after (.rxData 0x1A) full (fun t => (t.faultCause, t.status, t.af, t.wr)) =
    some (0b1000, .faulted, true, 32) := by decide
/-- Program B, step 20. -/
theorem test_txEvent : after .txEvent (sending [0x02, 0x01, 0x02, 0xFF, 0x00, 0x00] 1) (fun t => (t.tx, t.txPos)) =
    some (some 0x001, 2) := by decide
/-- Program B, step 25. -/
theorem test_txEvent_finishes : after .txEvent (sending frameQ 6) (fun t => (t.tx, t.txBusy, t.de, t.lineLog)) =
    some (none, false, false, [.de false]) := by decide
theorem test_reset : after .reset (sending frameQ 3) (fun t => (t.en, t.deOe, t.txBusy, t.txbuf)) =
    some (false, false, false, Memory.writeList [] 0 frameQ) := by decide

/-- A word placed by `withFetchWord` is what the next step carries out. -/
theorem test_withFetchWord :
    (match step (State.reset.withFetchWord 40 0x1FFFFFFFF) with
      | .next t => some (t.en, t.inputs) | .fault _ => none | .refused _ => none) = some (true, []) := by decide

/-! ### Witnesses: for each statement with hypotheses, states and operands that meet them, clause by clause, at the
ends of each range -/

theorem witness_PortWordsDecodeByTheirFields :
    (0x0FFFFFFFF#36).toNat / 2 ^ 32 = 0x0 ∧ (0x100000000#36).toNat / 2 ^ 32 = 0x1 ∧
    (0x1FFFFFFFF#36).toNat / 2 ^ 32 = 0x1 ∧ (0x200000000#36).toNat / 2 ^ 32 = 0x2 ∧
    (0x30000FFFF#36).toNat / 2 ^ 32 = 0x3 ∧ (0x400000000#36).toNat / 2 ^ 32 = 0x4 ∧
    (0x500000000#36).toNat / 2 ^ 32 = 0x5 ∧ (0x6FFFFFFFF#36).toNat / 2 ^ 32 = 0x6 ∧
    (0x700000000#36).toNat / 2 ^ 32 = 0x7 ∧ (0x800000000#36).toNat / 2 ^ 32 = 0x8 ∧
    (0x900000000#36).toNat / 2 ^ 32 = 0x9 ∧ (0xA00000000#36).toNat / 2 ^ 32 = 0xA ∧
    (0xBFF000000#36).toNat / 2 ^ 32 = 0xB ∧ (0xC00000000#36).toNat / 2 ^ 32 = 0xC ∧
    (0xD00000000#36).toNat / 2 ^ 32 = 0xD ∧ (0xE00000000#36).toNat / 2 ^ 32 = 0xE ∧
    (0xFFFFFFFFF#36).toNat / 2 ^ 32 = 0xF ∧
    (0x01#8 = Params.reference.ownAddr ∨ 0x01#8 ∈ Params.reference.groupAddrs) ∧
    ¬ (0x00#8 = Params.reference.ownAddr ∨ 0x00#8 ∈ Params.reference.groupAddrs) := by decide

theorem witness_DecodeInvertsEncode : (Instr.rxAddrMatch 0x01).wf Params.reference = true ∧
    (Instr.rxAddrMismatch 0xFF).wf Params.reference = true ∧ (Instr.send 0xFF 0xFF 0xFFFF).wf Params.reference = true := by
  decide

theorem witness_StepRunsTheDecodedStimulus :
    { fresh with inputs := [.txEvent] }.inputs = [.txEvent] ∧ fresh.inputs = [] := ⟨rfl, rfl⟩

theorem witness_RunsTakeTheStimuliInOrder : ∃ t,
    execAll (([.reset, .cmd 0x100000000] : List PortWord).map (decode fresh.params)) { fresh with inputs := [.txEvent] } =
      .next t := ⟨_, rfl⟩

/-- A next state exists: the hypothesis of every statement about all operations that go on
(`ParametersAndStimuliAreKept`, `EveryCommandAnswersOneWord`, `EnableChangesOnlyByInitAndReset`). -/
theorem witness_an_operation_goes_on : (∃ t, exec .busInit State.reset = .next t ∧ t.en = true ∧ State.reset.en = false) ∧
    (∃ t, exec .reset fresh = .next t ∧ t.en = false ∧ fresh.en = true) ∧
    (Instr.nop.agent = .host ∧ Instr.txEvent.agent ≠ .host) :=
  ⟨⟨_, rfl, rfl, rfl⟩, ⟨_, rfl, rfl, rfl⟩, by decide⟩

/-- The cursors and the two memories change: a listed byte of `RING` and one of `TXBUF` is overwritten. -/
theorem witness_EachPartHasItsOwnWriters_storage :
    (let s := { fresh with ring := [(0, 0x55)] };
      ∃ t, exec (.rxAddrMatch 0x01) s = .next t ∧ (∃ j, readRing t j ≠ readRing s j) ∧ t.wr ≠ s.wr) ∧
    (∃ t, exec .skipByte pending = .next t ∧ t.rd ≠ pending.rd) ∧
    (let s := { fresh with txbuf := [(31, 0x55)] };
      ∃ t, exec (.txbufWrite 0xAA 31) s = .next t ∧ ∃ j, readTxbuf t j ≠ readTxbuf s j) ∧
    9 < buffered pending :=
  ⟨⟨_, rfl, ⟨0, by decide⟩, by decide⟩, ⟨_, rfl, by decide⟩, ⟨_, rfl, 31, by decide⟩, by decide⟩

/-- The transmit registers change both ways. -/
theorem witness_EachPartHasItsOwnWriters_transmit :
    (∃ t, exec (.sendRaw 1) fresh = .next t ∧ t.txPos ≠ fresh.txPos ∧ t.txLen ≠ fresh.txLen ∧
      t.txBusy = true ∧ fresh.txBusy = false ∧ t.de = true ∧ fresh.de = false) ∧
    (let s := sending frameQ 6; ∃ t, exec .txEvent s = .next t ∧ t.txBusy = false ∧ s.txBusy = true ∧ t.de = false ∧
      s.de = true) ∧
    (∃ t, exec .busInit State.reset = .next t ∧ t.deOe = true ∧ State.reset.deOe = false) ∧
    (∃ t, exec .reset fresh = .next t ∧ t.deOe = false ∧ fresh.deOe = true) :=
  ⟨⟨_, rfl, by decide⟩, ⟨_, rfl, by decide⟩, ⟨_, rfl, by decide⟩, ⟨_, rfl, by decide⟩⟩

/-- The shared elements change: by a flagged character, by an accepted address, and by `RECOVER`. -/
theorem witness_EachPartHasItsOwnWriters_shared :
    (∃ t, exec (.rxErrParity false 0x01) fresh = .next t ∧ t.status ≠ fresh.status ∧
      t.faultCause ≠ fresh.faultCause) ∧
    (∃ t, exec (.rxAddrMatch 0x01) fresh = .next t ∧ t.af ≠ fresh.af) ∧
    (∃ t, exec .recover faulty = .next t ∧ t.status ≠ faulty.status ∧ t.faultCause ≠ faulty.faultCause) :=
  ⟨⟨_, rfl, by decide⟩, ⟨_, rfl, by decide⟩, ⟨_, rfl, by decide⟩⟩

theorem witness_ResetSatisfiesTheInvariant : { Params.reference with k := 3, maxPayload := 2 }.WF ∧
    { Params.reference with k := 16, maxPayload := 65530 }.WF ∧
    { Params.reference with groupAddrs := [0x10, 0xFF] }.WF := by decide

theorem witness_StepKeepsTheInvariant :
    BlockInv { fresh with inputs := [.rx 0x101] } ∧ ∃ t, step { fresh with inputs := [.rx 0x101] } = .next t :=
  ⟨by decide, _, rfl⟩

theorem witness_NoStepStops : BlockInv State.reset ∧ BlockInv fresh ∧ BlockInv (sending frameQ 6) :=
  ⟨by decide, by decide, by decide⟩

theorem witness_pending : BlockInv pending := by decide

theorem witness_full : BlockInv full := by decide

theorem witness_faulty : BlockInv faulty := by decide

theorem witness_ImpossibleCallsStopByName :
    (let s := holding [0x01, 0x00, 0x04, 0xFF, 0x00] .completeFrame true;
      s.en = true ∧ s.status = .completeFrame ∧ buffered s < 6) ∧
    (let s := holding (ping.take 6) .completeFrame true;
      s.en = true ∧ s.status = .completeFrame ∧ 6 ≤ buffered s ∧ buffered s ≤ (6#16).toNat ∧ (9#16).toNat < frameLength s ∧
      buffered s < frameLength s) ∧
    (let s := { sending frameQ 32 with txLen := 33 };
      s.en = true ∧ s.txBusy = true ∧ s.txPos < s.txLen ∧ 6 + s.params.maxPayload ≤ s.txPos) ∧
    (let s := { full with wr := 33 };
      s.en = true ∧ s.status ≠ .faulted ∧ s.af = false ∧ 2 ^ s.params.k < buffered s) := by decide

theorem witness_RecoverFlushesAndResumes : State.reset.en = false ∧
    (pending.en = true ∧ pending.status ≠ .faulted) ∧ (faulty.en = true ∧ faulty.status = .faulted) := by decide

/-- The hypotheses `en = 0` and `en = 1` of the statements that need no more (`FaultCauseReadsTheFlags`,
`FlaggedCharactersFault`, `DisabledBlockRefusesAndIgnores`). -/
theorem witness_disabled_and_enabled : State.reset.en = false ∧ fresh.en = true ∧ needsInit .occupancy ∧
    Instr.txEvent.agent = .txLine ∧ (Instr.rxData 0x00).agent = .rxLine := by decide

theorem witness_ReservedCodesAnswerBadCommand :
    ∀ i ∈ [Instr.reservedD, .reservedE, .reservedF], i = .reservedD ∨ i = .reservedE ∨ i = .reservedF := by decide

theorem witness_OccupancyReadsTheCursorDifference : State.reset.en = false ∧
    (let s := { fresh with params := { Params.reference with k := 16 }, wr := 65536 };
      s.en = true ∧ s.params.k ≤ 16 ∧ buffered s = 65536) := by decide

theorem witness_DetectorFollowsItsThreeSteps :
    (let s := holding [0x01, 0x00, 0x05, 0xFF, 0x00] .idle false; buffered s < 6) ∧
    (let s := holding [0x01, 0x00, 0x05, 0xFF, 0x00, 0x04] .headerChecksumMismatch false;
      6 ≤ buffered s ∧ ¬ headerSumHolds s) ∧
    (let s := holding frameQ .completeFrame true; 6 ≤ buffered s ∧ headerSumHolds s ∧ frameLength s ≤ buffered s) ∧
    (let s := holding (ping.take 9) .idle false; 6 ≤ buffered s ∧ headerSumHolds s ∧ buffered s < frameLength s) := by
  decide

theorem witness_CurrentFrameReadsTheFrame : State.reset.en = false ∧ (fresh.en = true ∧ fresh.status ≠ .completeFrame) ∧
    (pending.en = true ∧ pending.status = .completeFrame ∧ StatusCurrent pending ∧ frameLength pending ≤ (10#16).toNat ∧
      (9#16).toNat < frameLength pending) := by decide

theorem witness_PacketDoneRetiresTheFrame : State.reset.en = false ∧ (full.en = true ∧ full.status ≠ .completeFrame) ∧
    (pending.en = true ∧ pending.status = .completeFrame ∧ StatusCurrent pending) := by decide

theorem witness_SkipByteRetiresOneByte : State.reset.en = false ∧
    (faulty.en = true ∧ faulty.status = .faulted) ∧ (fresh.en = true ∧ fresh.status ≠ .faulted ∧ buffered fresh = 0) ∧
    (let s := holding [0x01] .idle false; s.en = true ∧ s.status ≠ .faulted ∧ buffered s ≠ 0) := by decide

/-- For `MatchingAddressIsKept` and `DataCharacterIsFilteredOrPushed`, with the two clauses of `accept_and_push`: room
for one more byte, and none; and for `ForeignAddressArmsTheFilter`. -/
theorem witness_characters : State.reset.en = false ∧ faulty.status = .faulted ∧ fresh.af = true ∧
    (let s := holding (List.replicate 31 0x00) .headerChecksumMismatch false;
      s.en = true ∧ s.status ≠ .faulted ∧ s.af = false ∧ buffered s < 2 ^ s.params.k) ∧
    (full.en = true ∧ full.status ≠ .faulted ∧ full.af = false ∧ buffered full = 2 ^ full.params.k) := by decide

theorem witness_ReceivedCharacterIsDispatched :
    { fresh with inputs := [rxStimulus false true false true 0x55] }.inputs = rxStimulus false true false true 0x55 :: [] ∧
    State.reset.en = false ∧ fresh.en = true ∧ fresh.status ≠ .faulted ∧ fresh.af = true ∧ full.af = false ∧
    faulty.status = .faulted ∧ (false || true || false) = true ∧ ¬ (false || false || false) = true ∧
    (0x01#8 = fresh.params.ownAddr ∨ 0x01#8 ∈ fresh.params.groupAddrs) ∧
    ¬ (0x02#8 = fresh.params.ownAddr ∨ 0x02#8 ∈ fresh.params.groupAddrs) := by decide

theorem witness_TxbufWriteStoresOneByte : State.reset.en = false ∧
    ((sending frameQ 1).en = true ∧ (sending frameQ 1).txBusy = true) ∧
    (fresh.en = true ∧ fresh.txBusy = false ∧ 6 + fresh.params.maxPayload ≤ (32#16).toNat ∧
      (31#16).toNat < 6 + fresh.params.maxPayload) := by decide

/-- For `EncodeFrameWritesTheHeader` and `SendStartsAFrame`. -/
theorem witness_payload_lengths : State.reset.en = false ∧
    ((sending frameQ 1).en = true ∧ (sending frameQ 1).txBusy = true) ∧
    (fresh.en = true ∧ fresh.txBusy = false ∧ fresh.params.maxPayload < (27#16).toNat ∧
      (26#16).toNat ≤ fresh.params.maxPayload) := by decide

/-- For `SendRawStartsTheBuffer` and `SendRawTransmitsTheBuffer`. -/
theorem witness_raw_lengths : State.reset.en = false ∧
    ((sending frameQ 1).en = true ∧ (sending frameQ 1).txBusy = true) ∧
    (fresh.en = true ∧ fresh.txBusy = false ∧ fresh.de = false ∧ (0#16).toNat = 0 ∧
      6 + fresh.params.maxPayload < (33#16).toNat ∧ 1 ≤ (1#16).toNat ∧ (32#16).toNat ≤ 6 + fresh.params.maxPayload) := by
  decide

theorem witness_TxEventEmitsOrFinishes : State.reset.en = false ∧ fresh.txBusy = false ∧
    (let s := sending frameQ 5;
      s.en = true ∧ s.txBusy = true ∧ s.txPos < s.txLen ∧ s.txPos < 6 + s.params.maxPayload) ∧
    (let s := sending frameQ 6; s.en = true ∧ s.txBusy = true ∧ s.txLen ≤ s.txPos) := by decide

theorem witness_SendFrameTransmitsTheEncodedFrame : fresh.params.WF ∧ fresh.en = true ∧ fresh.txBusy = false ∧
    fresh.de = false ∧ encodedFrame fresh.params 0x01 0x00 [0x70, 0x69, 0x6E, 0x67] = some ping ∧
    encodedFrame fresh.params 0x01 0x02 [] = some frameQ := by decide

theorem witness_FrameInFlightIsNotTouched : (sending frameQ 1).txBusy = true ∧
    ∃ t, exec (.txbufWrite 0x00 6) (sending frameQ 1) = .next t := ⟨rfl, _, rfl⟩

theorem witness_FaultStateEntryAndExit :
    (∃ t, exec (.rxErrParity false 0x01) fresh = .next t ∧ fresh.status ≠ .faulted ∧ t.status = .faulted) ∧
    (∃ t, exec .recover faulty = .next t ∧ faulty.status = .faulted ∧ t.status ≠ .faulted ∧
      t.faultCause &&& faulty.faultCause ≠ faulty.faultCause) :=
  ⟨⟨_, rfl, by decide, by decide⟩, ⟨_, rfl, by decide, by decide, by decide⟩⟩

theorem witness_FilterIsDisarmedOnlyByAMatch :
    ∃ t, exec (.rxAddrMatch 0x01) fresh = .next t ∧ fresh.af = true ∧ t.af = false := ⟨_, rfl, rfl, by decide⟩

theorem witness_LineEventsKeepAReportedStatus :
    BlockInv pending ∧ pending.status = .completeFrame ∧
    BlockInv (holding [0x01, 0x00, 0x05, 0xFF, 0x00, 0x04] .headerChecksumMismatch false) ∧
    (Instr.rxAddrMatch 0x01).agent = .rxLine ∧ ∃ t, exec (.rxAddrMatch 0x01) pending = .next t :=
  ⟨by decide, rfl, by decide, rfl, _, rfl⟩

theorem witness_PendingFrameReadsTheSame :
    BlockInv pending ∧ pending.en = true ∧ pending.status = .completeFrame ∧
    (∀ i ∈ [Instr.rxAddrMatch 0x01, .rxData 0x00, .txEvent], i.agent = .rxLine ∨ i.agent = .txLine) ∧
    ∃ t, execAll [.rxAddrMatch 0x01, .rxData 0x00, .txEvent] pending = .next t ∧ t.status ≠ .faulted :=
  ⟨by decide, rfl, rfl, by decide, _, rfl, by decide⟩

theorem witness_LineEventsCommute : (Instr.rxAddrMatch 0x01).agent = .rxLine ∧
    (∃ t, execAll [.rxAddrMatch 0x01, .txEvent] (sending frameQ 1) = .next t) ∧
    ∃ u, execAll [.txEvent, .rxAddrMatch 0x01] (sending frameQ 1) = .next u := ⟨rfl, ⟨_, rfl⟩, _, rfl⟩

theorem witness_EncodeFrameBuildsTheFrame : Params.reference.WF ∧
    (List.replicate 26 0x00#8).length ≤ Params.reference.maxPayload ∧
    Params.reference.maxPayload < (List.replicate 27 0x00#8).length := by decide

/-- For `EncodedFramesValidate` and `SingleBitErrorsAreDetected`: the first and the last bit of the header. -/
theorem witness_encoded_frame : encodedFrame Params.reference 0x01 0x02 [] = some frameQ ∧
    0 < frameQ.length ∧ 5 < frameQ.length ∧ 5 < 6 ∧ 7 < 8 := by decide

theorem witness_EncodedFrameIsReceived : BlockInv fresh ∧ fresh.en = true ∧ fresh.status = .idle ∧ buffered fresh = 0 ∧
    accept fresh.params 0x01 = true ∧ encodedFrame fresh.params 0x01 0x02 [] = some frameQ ∧
    (∀ j < frameQ.length, 6 ≠ (fresh.wr + j) % 2 ^ fresh.params.k) ∧
    (encodedFrame fresh.params 0x01 0x02 (List.replicate 26 0x00)).isSome = true := by decide

theorem witness_ForeignFrameLeavesNoTrace : fresh.en = true ∧ full.status ≠ .faulted ∧
    accept fresh.params 0x02 = false := by decide

theorem witness_SkippingResynchronises :
    let s := { holding (ping ++ [0x01] ++ ping ++ frameQ) .headerChecksumMismatch false with rd := 10 }
    BlockInv s ∧ s.en = true ∧ s.status = .headerChecksumMismatch ∧ 1 ≤ buffered s ∧
    (∀ j < 1, 6 ≤ buffered s - j ∧ ¬ headerSumHolds { s with rd := s.rd + j }) ∧ 6 ≤ buffered s - 1 ∧
    headerSumHolds { s with rd := s.rd + 1 } ∧ frameLength { s with rd := s.rd + 1 } ≤ buffered s - 1 := by decide

theorem witness_OversizedHeaderNeverCompletes : BlockInv full ∧ full.status = .idle ∧ 6 ≤ buffered full ∧
    headerSumHolds full ∧ 2 ^ full.params.k < frameLength full ∧
    (∀ i ∈ [Instr.rxData 0x1A], i.agent = .rxLine ∨ i.agent = .txLine) ∧
    ∃ t, execAll [.rxData 0x1A] full = .next t :=
  ⟨by decide, rfl, by decide, by decide, by decide, by decide, _, rfl⟩

theorem witness_FrameBehindAPendingFrameIsLost : BlockInv pending ∧ pending.en = true ∧
    pending.status = .completeFrame ∧ accept pending.params 0x01 = true ∧ buffered pending < 2 ^ pending.params.k := by
  decide

end Sys2Proof.Tests
end

section
/-! The statements of 00_scope.md: what no operation changes, and what a step carries out. -/

namespace Sys2Proof.Machine

/-! ### The parameters and the stimuli still to come -/

theorem advanceRead_params_inputs {n : Nat} {s t : State} (h : advanceRead n s = some t) :
    t.params = s.params ∧ t.inputs = s.inputs := by
  obtain ⟨-, rfl⟩ := advanceRead_some h
  exact ⟨rfl, rfl⟩

/-- Of all the ways an operation can go on, only retiring and pushing reach these two fields through a shared
operation; the others write registers and memories beside them. -/
theorem Effect.params_inputs {i : Instr} {s t : State} (h : Effect s i t) :
    t.params = s.params ∧ t.inputs = s.inputs := by
  cases h with
  | retired n hi he hs hu =>
    obtain ⟨hp, hx⟩ := advanceRead_params_inputs hu
    simp [hp, hx]
  | addressed d he hs => simp
  | collected d he hs ha => simp
  | _ => exact ⟨rfl, rfl⟩

/-- Settles O7, by the cases of `exec_effect`. -/
theorem parametersAndStimuliAreKept : Obligations.ParametersAndStimuliAreKept :=
  fun _ _ _ h => (exec_effect h).params_inputs

/-! ### Steps and their stimuli -/

theorem step_of_inputs_cons {s : State} {w : PortWord} {rest : List PortWord} (h : s.inputs = w :: rest) :
    step s = exec (decode s.params w) { s with inputs := rest } := by
  simp only [step, h]

theorem step_of_inputs_nil {s : State} (h : s.inputs = []) : step s = .next s := by
  simp only [step, h]

/-- The words of 36 bits are those of the command port (R66). -/
theorem portWordOfTable_cmd (w : BitVec 36) : portWordOfTable 40 w.toNat = .ok (.cmd w) := by
  simpa [portWordOfTable] using w.isLt

/-- The words of 12 bits are those of the received-character port (R65). -/
theorem portWordOfTable_rx (w : BitVec 12) : portWordOfTable 16 w.toNat = .ok (.rx w) := by
  simpa [portWordOfTable] using w.isLt

/-- A placed raw word is taken by the very next step, and the stimuli behind it stand as they stood. -/
theorem step_withFetchWord {nbits w : Nat} {pw : PortWord} (h : portWordOfTable nbits w = .ok pw) (s : State) :
    step (s.withFetchWord nbits w) = exec (decode s.params pw) s := by
  have hs : s.withFetchWord nbits w = { s with inputs := pw :: s.inputs } := by
    simp only [State.withFetchWord, h]
  rw [hs, step_of_inputs_cons rfl]

/-- Settles O5: `step` by the shape of the waiting list, and a placed word by the port it is read on. -/
theorem stepRunsTheDecodedStimulus : Obligations.StepRunsTheDecodedStimulus :=
  ⟨fun _ _ _ h => step_of_inputs_cons h, fun _ h => step_of_inputs_nil h,
    fun s w => step_withFetchWord (portWordOfTable_cmd w) s,
    fun s w => step_withFetchWord (portWordOfTable_rx w) s,
    fun s => step_withFetchWord (pw := .txEvent) rfl s⟩

end Sys2Proof.Machine
end

section
/-! The statements of 10_state.md: the invariant of the block right after reset and over every step, and which
operations move `en` and `af`. The invariant is taken in parts that change together: the ring with its cursors, the
status with its cause and the filter, the transmitter with its buffer. -/

namespace Sys2Proof.Machine

/-! ### The parts of the invariant -/

/-- The receive ring: cursors in range, memory in canonical form, every buffered byte written (R13, R14, R91). -/
abbrev RingOk (s : State) : Prop :=
  CursorsOk s ∧ Memory.wf s.ring = true ∧ Memory.within s.params.cap s.ring = true ∧ WindowWritten s

/-- The status, the causes and the filter agree with the ring and with each other (R17 to R19). -/
abbrev StatusOk (s : State) : Prop := StatusCurrent s ∧ CauseMatchesStatus s ∧ FilterArmedWhenDone s

/-- The transmit buffer and the transmit registers (R15, R16, R20, R132). -/
abbrev TransmitOk (s : State) : Prop :=
  Memory.wf s.txbuf = true ∧ Memory.within s.params.txcap s.txbuf = true ∧ TransmitterOk s

theorem blockInv_iff (s : State) :
    BlockInv s ↔ s.params.WF ∧ RingOk s ∧ StatusOk s ∧ TransmitOk s ∧ EnableOk s := by
  constructor
  · rintro ⟨hp, hc, ⟨hrw, hri, htw, hti⟩, hw, hs, hf, ha, ht, he⟩
    exact ⟨hp, ⟨hc, hrw, hri, hw⟩, ⟨hs, hf, ha⟩, ⟨htw, hti, ht⟩, he⟩
  · rintro ⟨hp, ⟨hc, hrw, hri, hw⟩, ⟨hs, hf, ha⟩, ⟨htw, hti, ht⟩, he⟩
    exact ⟨hp, hc, ⟨hrw, hri, htw, hti⟩, hw, hs, hf, ha, ht, he⟩

/-! ### The ring -/

theorem occupancy_eq_zero {s : State} (h : s.wr = s.rd) : occupancy s = 0 :=
  occupancy_unique s (Nat.two_pow_pos _) (by rw [h, Nat.add_zero])

/-- An empty ring whose cursors stand at 0, as `BUS_INIT` and reset leave it (R152, R180). -/
theorem ringOk_of_cursors_zero {s : State} (hw : s.wr = 0) (hr : s.rd = 0) (hwf : Memory.wf s.ring = true)
    (hin : Memory.within s.params.cap s.ring = true) : RingOk s := by
  have hM : 0 < s.params.cursorMod := Nat.two_pow_pos _
  have h0 : occupancy s = 0 := occupancy_eq_zero (hw.trans hr.symm)
  exact ⟨⟨by rwa [hw], by rwa [hr], by simp [h0]⟩, hwf, hin, fun j hj => by omega⟩

/-- A push writes the byte behind the window, so the window it lengthens stays written (R92). -/
theorem ringOk_push {d : Byte} {s t : State} (hp : push d s = some t) (h : RingOk s) : RingOk t := by
  obtain ⟨⟨-, hrd, -⟩, hwf, hin, hwin⟩ := h
  have hocc := occupancy_push hp
  obtain ⟨hc, rfl⟩ := push_some hp
  refine ⟨⟨Nat.mod_lt _ (Nat.two_pow_pos _), hrd, ?_⟩, Memory.wf_write _ _ hwf,
    Memory.within_write _ (Nat.mod_lt _ (cap_pos _)) hin, fun j hj => ?_⟩
  · rw [hocc]; exact hc
  · rw [hocc] at hj
    rw [Memory.read_write]
    split_ifs with hj'
    · rfl
    · have hne : j ≠ occupancy s := fun e => hj' (by rw [e, ringIndex_wr])
      exact hwin j (by omega)

/-- Retiring bytes shortens the window from its front (R95). -/
theorem ringOk_advanceRead {n : Nat} {s t : State} (ha : advanceRead n s = some t) (h : RingOk s) : RingOk t := by
  obtain ⟨⟨hwr, -, hcap⟩, hwf, hin, hwin⟩ := h
  have hocc := occupancy_advanceRead ha
  obtain ⟨hn, rfl⟩ := advanceRead_some ha
  refine ⟨⟨hwr, Nat.mod_lt _ (Nat.two_pow_pos _), ?_⟩, hwf, hin, fun j hj => ?_⟩
  · rw [hocc]; exact (Nat.sub_le _ _).trans hcap
  · rw [hocc] at hj
    have hidx : ringIndex s.params ((s.rd + n) % s.params.cursorMod + j) = ringIndex s.params (s.rd + (n + j)) := by
      rw [ringIndex, Nat.add_mod, mod_mod_cap, ← Nat.add_mod, Nat.add_assoc, ringIndex]
    rw [hidx]
    exact hwin (n + j) (by omega)

/-- `RECOVER` retires all there is (R154). -/
theorem advanceRead_occupancy (s : State) :
    advanceRead (occupancy s) s = some { s with rd := (s.rd + occupancy s) % s.params.cursorMod } :=
  if_pos (Nat.le_refl _)

theorem ringOk_congr {s t : State} (hp : t.params = s.params) (hm : t.ring = s.ring) (hw : t.wr = s.wr)
    (hr : t.rd = s.rd) (h : RingOk s) : RingOk t := by
  simpa only [RingOk, CursorsOk, WindowWritten, occupancy_congr hp hw hr, hp, hm, hw, hr] using h

theorem ringOk_updateStatus {s : State} (h : RingOk s) : RingOk (updateStatus s) :=
  ringOk_congr (by simp) (by simp) (by simp) (by simp) h

theorem ringOk_acceptAndPush (d : Byte) {s : State} (h : RingOk s) : RingOk (acceptAndPush d s) := by
  unfold acceptAndPush
  split
  next t ht => exact ringOk_updateStatus (ringOk_push ht h)
  next => exact h

theorem Effect.ringOk {i : Instr} {s t : State} (e : Effect s i t) (h : RingOk s) : RingOk t := by
  have ⟨_, hwf, hin, _⟩ := h
  cases e with
  | busInit => exact ringOk_of_cursors_zero rfl rfl hwf hin
  | reset => exact ringOk_of_cursors_zero rfl rfl hwf hin
  | retired n hi he hs hu => exact ringOk_updateStatus (ringOk_advanceRead (s := clearOutputs s) hu h)
  | recovered he hs => exact (ringOk_advanceRead (advanceRead_occupancy s) h :)
  | addressed d he hs => exact ringOk_acceptAndPush d (s := disableAddressFilter (clearOutputs s)) h
  | collected d he hs ha => exact ringOk_acceptAndPush d (s := clearOutputs s) h
  | _ => exact h

/-! ### The status, the causes and the filter -/

theorem detect_of_empty {s : State} (h : occupancy s = 0) : detect s = .idle := by
  rw [detect_eq, detectBytes_short (by simp [h])]

/-- Outside the fault state no cause is recorded, so running the detector settles the status and the filter (R102). -/
theorem statusOk_updateStatus {s : State} (hs : s.status ≠ .faulted) (hf : s.faultCause = 0#4) :
    StatusOk (updateStatus s) := by
  have hd := detect_ne_faulted s
  have hdet : detect (updateStatus s) = detect s := detect_congr (queue_updateStatus s)
  refine ⟨fun _ => ?_, ?_, ?_⟩
  · rw [hdet, updateStatus_status hs]
  · simp [CauseMatchesStatus, updateStatus_status hs, hf, hd]
  · rw [FilterArmedWhenDone, updateStatus_status hs, updateStatus_af hs]
    rintro (hc | hc)
    · simp [hc]
    · exact absurd hc hd

/-- The fault state holds a cause as soon as it is entered with one, and arms the filter (R166). -/
theorem statusOk_enterFault {c : BitVec 4} (hc : c ≠ 0#4) (s : State) : StatusOk (enterFault c s) := by
  refine ⟨by simp [StatusCurrent], ?_, by simp [FilterArmedWhenDone]⟩
  simp [CauseMatchesStatus, BitVec.or_eq_zero_iff, hc]

/-- The block after `BUS_INIT`, reset or `RECOVER`: idle over an empty ring, no cause, the filter armed. -/
theorem statusOk_idle {s : State} (ho : occupancy s = 0) (hs : s.status = .idle) (hf : s.faultCause = 0#4) :
    StatusOk s :=
  ⟨fun _ => by rw [hs, detect_of_empty ho], by simp [CauseMatchesStatus, hf, hs], by simp [FilterArmedWhenDone, hs]⟩

theorem StatusOk.faultCause_eq_zero {s : State} (h : StatusOk s) (hs : s.status ≠ .faulted) : s.faultCause = 0#4 := by
  obtain ⟨-, hcause, -⟩ := h
  exact not_not.1 (mt hcause.1 hs)

theorem statusOk_acceptAndPush (d : Byte) {s : State} (hs : s.status ≠ .faulted) (hf : s.faultCause = 0#4) :
    StatusOk (acceptAndPush d s) := by
  unfold acceptAndPush
  split
  next t ht =>
    obtain ⟨-, rfl⟩ := push_some ht
    exact statusOk_updateStatus hs hf
  next => exact statusOk_enterFault (by decide) s

theorem Effect.statusOk {i : Instr} {s t : State} (e : Effect s i t) (h : StatusOk s) : StatusOk t := by
  cases e with
  | busInit => exact statusOk_idle (occupancy_eq_zero rfl) rfl rfl
  | reset => exact statusOk_idle (occupancy_eq_zero rfl) rfl rfl
  | retired n hi he hs hu =>
    obtain ⟨-, rfl⟩ := advanceRead_some hu
    exact statusOk_updateStatus hs (h.faultCause_eq_zero hs)
  | recovered he hs =>
    exact statusOk_idle ((occupancy_advanceRead (advanceRead_occupancy s)).trans (Nat.sub_self _)) rfl rfl
  | faulted c hi hc he => exact statusOk_enterFault hc _
  | armed d he hs =>
    obtain ⟨hcur, hcause, -⟩ := h
    exact ⟨hcur, hcause, fun _ => rfl⟩
  | addressed d he hs => exact statusOk_acceptAndPush d hs (h.faultCause_eq_zero hs)
  | collected d he hs ha => exact statusOk_acceptAndPush d hs (h.faultCause_eq_zero hs)
  | _ => exact h

/-! ### The transmitter -/

theorem transmitOk_congr {s t : State} (hp : t.params = s.params) (hm : t.txbuf = s.txbuf) (hb : t.txBusy = s.txBusy)
    (hx : t.txPos = s.txPos) (hl : t.txLen = s.txLen) (hd : t.de = s.de) (h : TransmitOk s) : TransmitOk t := by
  simpa only [TransmitOk, TransmitterOk, hp, hm, hb, hx, hl, hd] using h

/-- No transmission in flight, the transmit cursors at 0 (R152, R180). -/
theorem transmitOk_at_rest {s : State} (hwf : Memory.wf s.txbuf = true)
    (hin : Memory.within s.params.txcap s.txbuf = true) (hb : s.txBusy = false) (hx : s.txPos = 0) (hl : s.txLen = 0)
    (hd : s.de = false) : TransmitOk s := by
  simp [TransmitOk, TransmitterOk, hwf, hin, hb, hx, hl, hd]

/-- Retiring and receiving leave the transmitter alone (R170); sends, transmit events and the initialisations set it. -/
theorem Effect.transmitOk {i : Instr} {s t : State} (e : Effect s i t) (h : TransmitOk s) : TransmitOk t := by
  have ⟨hwf, hin, hde, hle, hcap, hpos⟩ := h
  cases e with
  | busInit => exact transmitOk_at_rest hwf hin rfl rfl rfl rfl
  | reset => exact transmitOk_at_rest hwf hin rfl rfl rfl rfl
  | retired n hi he hs hu =>
    obtain ⟨-, rfl⟩ := advanceRead_some hu
    exact transmitOk_congr (by simp) (by simp) (by simp) (by simp) (by simp) (by simp) h
  | stored a bytes ha hi he hb =>
    exact ⟨Memory.wf_writeList a bytes hwf, Memory.within_writeList a bytes ha hin, hde, hle, hcap, hpos⟩
  | started bytes n ha h1 h2 hi he hb =>
    exact ⟨Memory.wf_writeList 0 bytes hwf, Memory.within_writeList 0 bytes (by rwa [Nat.zero_add]) hin, rfl, h1, h2,
      fun _ => Nat.le_refl 1⟩
  | addressed d he hs => exact transmitOk_congr (by simp) (by simp) (by simp) (by simp) (by simp) (by simp) h
  | collected d he hs ha => exact transmitOk_congr (by simp) (by simp) (by simp) (by simp) (by simp) (by simp) h
  | emitted he hb hp hc => exact ⟨hwf, hin, hde, hp, hcap, fun _ => Nat.le_add_left 1 _⟩
  | finished he hb hp => exact ⟨hwf, hin, rfl, hle, hcap, by simp⟩
  | _ => exact h

/-! ### The enable flag -/

theorem enableOk_of_enabled {s : State} (he : s.en = true) (hd : s.deOe = true) : EnableOk s := by
  rwa [EnableOk, if_pos he]

/-- Only `BUS_INIT`, reset and the operations of an enabled block do more than answer (R22, R161). -/
theorem Effect.enableOk {i : Instr} {s t : State} (e : Effect s i t) (h : EnableOk s) : EnableOk t := by
  have hd : s.en = true → s.deOe = true := fun he => by rwa [EnableOk, if_pos he] at h
  cases e with
  | busInit => exact enableOk_of_enabled rfl rfl
  | reset => exact ⟨rfl, rfl, rfl, rfl, rfl, rfl, rfl, rfl⟩
  | retired n hi he hs hu =>
    obtain ⟨-, rfl⟩ := advanceRead_some hu
    exact enableOk_of_enabled (by simpa using he) (by simpa using hd he)
  | addressed d he hs => exact enableOk_of_enabled (by simpa using he) (by simpa using hd he)
  | collected d he hs ha => exact enableOk_of_enabled (by simpa using he) (by simpa using hd he)
  | rejected | answered | ignored => exact h
  | _ => exact enableOk_of_enabled ‹s.en = true› (hd ‹s.en = true›)

/-! ### The invariant -/

theorem Effect.blockInv {i : Instr} {s t : State} (e : Effect s i t) (h : BlockInv s) : BlockInv t := by
  rw [blockInv_iff] at h ⊢
  obtain ⟨hp, hr, hs, ht, he⟩ := h
  exact ⟨e.params_inputs.1 ▸ hp, e.ringOk hr, e.statusOk hs, e.transmitOk ht, e.enableOk he⟩

/-- Every operation that goes on keeps the invariant. -/
theorem exec_blockInv {i : Instr} {s t : State} (h : exec i s = .next t) (hs : BlockInv s) : BlockInv t :=
  (exec_effect h).blockInv hs

/-- The invariant says nothing of the stimuli still to come. -/
theorem blockInv_with_inputs {s : State} (h : BlockInv s) (ws : List PortWord) : BlockInv { s with inputs := ws } := h

/-- Settles O9: a step is idle or one operation, and every effect of an operation keeps each part of the invariant. -/
theorem stepKeepsTheInvariant : Obligations.StepKeepsTheInvariant := by
  intro s t hs h
  cases hw : s.inputs with
  | nil =>
    rw [step_of_inputs_nil hw] at h
    cases h
    exact hs
  | cons w rest =>
    rw [step_of_inputs_cons hw] at h
    exact exec_blockInv h (blockInv_with_inputs hs rest)

/-- Settles O8: both memories are empty and every register stands where the parts of the invariant allow it. -/
theorem resetSatisfiesTheInvariant : Obligations.ResetSatisfiesTheInvariant := fun _ hp =>
  (blockInv_iff _).2 ⟨hp, ringOk_of_cursors_zero rfl rfl rfl rfl, statusOk_idle (occupancy_eq_zero rfl) rfl rfl,
    transmitOk_at_rest rfl rfl rfl rfl rfl rfl, rfl, rfl, rfl, rfl, rfl, rfl, rfl, rfl⟩

/-! ### Who moves `en` and `af` -/

/-- An operation other than `BUS_INIT` and reset leaves `en` as it was (R22). -/
theorem Effect.en_eq {i : Instr} {s t : State} (e : Effect s i t) (hb : i ≠ .busInit) (hr : i ≠ .reset) :
    t.en = s.en := by
  cases e with
  | busInit => exact absurd rfl hb
  | reset => exact absurd rfl hr
  | retired n hi he hs hu =>
    obtain ⟨-, rfl⟩ := advanceRead_some hu
    simp
  | addressed d he hs => simp
  | collected d he hs ha => simp
  | _ => rfl

/-- Settles O42: of the two operations that write `en`, each writes one value only. -/
theorem enableChangesOnlyByInitAndReset : Obligations.EnableChangesOnlyByInitAndReset := by
  intro i s t h
  by_cases hb : i = .busInit
  · subst hb
    cases h
    exact ⟨fun _ _ => rfl, fun ht _ => absurd ht (by simp)⟩
  · by_cases hr : i = .reset
    · subst hr
      cases h
      exact ⟨fun ht _ => absurd ht (by simp), fun _ _ => rfl⟩
    · have hen := (exec_effect h).en_eq hb hr
      exact ⟨fun ht hs => by simp [hen, hs] at ht, fun ht hs => by simp [hen, hs] at ht⟩

/-- The detector never disarms the filter (R102). -/
theorem updateStatus_af_of_armed {s : State} (h : s.af = true) : (updateStatus s).af = true := by
  unfold updateStatus
  split_ifs
  · exact h
  · rfl
  · exact h

/-- An operation other than an address match leaves an armed filter armed (R19). -/
theorem Effect.af_of_armed {i : Instr} {s t : State} (e : Effect s i t) (hi : ∀ d, i ≠ .rxAddrMatch d)
    (h : s.af = true) : t.af = true := by
  cases e with
  | busInit => rfl
  | reset => rfl
  | retired n hi he hs hu =>
    obtain ⟨-, rfl⟩ := advanceRead_some hu
    exact updateStatus_af_of_armed h
  | recovered he hs => rfl
  | faulted c hi hc he => rfl
  | armed d he hs => rfl
  | addressed d he hs => exact absurd rfl (hi d)
  | collected d he hs ha => simp [h] at ha
  | _ => exact h

/-- Settles O45: of all effects only that of an address match can disarm the filter. -/
theorem filterIsDisarmedOnlyByAMatch : Obligations.FilterIsDisarmedOnlyByAMatch := by
  intro i s t h hs ht
  by_contra hi
  have harmed : t.af = true := (exec_effect h).af_of_armed (not_exists.1 hi) hs
  simp [harmed] at ht

end Sys2Proof.Machine
end

section
/-! The statements of 20_memory.md: a run of steps carries out the waiting stimuli one at a time, and the calls outside
a precondition stop by name. Beside them the quantities of the statements, in the model's own terms. -/

namespace Sys2Proof.Machine

open Sys2Proof.Claims

/-! ### Runs over the waiting stimuli -/

/-- A placed word is carried out by the next step as on the state without it, and the words behind it stay (R48). -/
theorem step_withInputs_cons {w : PortWord} {s u : State} (h : exec (decode s.params w) s = .next u)
    (ws : List PortWord) : step (withInputs (w :: ws) s) = .next (withInputs ws u) := by
  rw [step_of_inputs_cons rfl]
  exact (exec_withInputs _ ws s).trans (congrArg (mapNext (withInputs ws)) h)

/-- A run takes the words placed before the stimuli of `s` and leaves exactly those stimuli (R48). -/
theorem run_of_execAll (ws : List PortWord) {s t : State} (h : execAll (ws.map (decode s.params)) s = .next t) :
    Host.Core.run core ws.length (withInputs (ws ++ s.inputs) s) = .next t ∧ t.inputs = s.inputs := by
  induction ws generalizing s with
  | nil =>
    cases h
    exact ⟨rfl, rfl⟩
  | cons w ws ih =>
    obtain ⟨u, hu, hrun⟩ := andThen_next h
    obtain ⟨hparams, hinputs⟩ := (exec_effect hu).params_inputs
    have hstep : core.step (withInputs (w :: ws ++ s.inputs) s) = .next (withInputs (ws ++ u.inputs) u) := by
      rw [hinputs]
      exact step_withInputs_cons hu (ws ++ s.inputs)
    rw [← hparams] at hrun
    rw [List.length_cons, run_succ core _ _ _ hstep, ← hinputs]
    exact ih hrun

/-- Settles O6, by induction on the waiting words. -/
theorem runsTakeTheStimuliInOrder : Obligations.RunsTakeTheStimuliInOrder :=
  fun ws rest s _ h => run_of_execAll ws (s := withInputs rest s) h

/-! ### The statements' quantities in the model's terms -/

theorem buffered_eq_occupancy (s : State) : buffered s = occupancy s := by
  have h := occupancy_int s
  rw [Params.cursorMod, Nat.cast_pow, Nat.cast_ofNat] at h
  rw [buffered, ← h, Int.toNat_natCast]

theorem queue_getD {s : State} {i : Nat} (h : i < occupancy s) : (queue s).getD i 0 = frameByte s i := by
  have hi : i < (queue s).length := by rwa [queue_length]
  rw [List.getD_eq_getElem _ _ hi, queue_getElem]
  rfl

/-- The first 6 buffered bytes are a header window whose length field gives `6 + length` (R42). -/
theorem frameLengthOf_queue_take {s : State} (h : 6 ≤ occupancy s) :
    frameLengthOf ((queue s).take 6) = frameLength s := by
  rw [frameLengthOf_take (by rwa [queue_length]), frameLengthOf, lengthOf, queue_getD (by omega),
    queue_getD (by omega), frameLength, Nat.add_assoc]

/-! ### The frame reads behind a complete frame, by the bytes that are buffered -/

theorem exec_currentFrame_short {s : State} (he : s.en = true) (hs : s.status = .completeFrame)
    (h : occupancy s < 6) (n : BitVec 16) : exec (.currentFrame n) s = .refused .peekOutsideWindow := by
  rw [exec, execCurrentFrame, ifInit_on he, if_pos hs, peekWindow_none h]
  rfl

theorem exec_currentFrame_complete {s : State} (he : s.en = true) (hs : s.status = .completeFrame)
    (h : 6 ≤ occupancy s) (n : BitVec 16) : exec (.currentFrame n) s =
      if frameLength s ≤ n.toNat then reject .errRange s
      else orRefuse .peekOutsideWindow (peekWindow s n.toNat 1) fun bytes =>
        answerOk ((bytes.getD 0 0).setWidth 17) (clearOutputs s) := by
  rw [exec, execCurrentFrame, ifInit_on he, if_pos hs, peekWindow_some h, ← frameLengthOf_queue_take h]
  rfl

theorem exec_packetDone_short {s : State} (he : s.en = true) (hs : s.status = .completeFrame)
    (h : occupancy s < 6) : exec .packetDone s = .refused .peekOutsideWindow := by
  rw [exec, execPacketDone, ifInit_on he, if_pos hs, peekWindow_none h]
  rfl

theorem exec_packetDone_complete {s : State} (he : s.en = true) (hs : s.status = .completeFrame)
    (h : 6 ≤ occupancy s) : exec .packetDone s =
      orRefuse .advancePastWrite (advanceRead (frameLength s) (clearOutputs s)) fun t =>
        answerOk 0#17 (updateStatus t) := by
  rw [exec, execPacketDone, ifInit_on he, if_pos hs, peekWindow_some h, ← frameLengthOf_queue_take h]
  rfl

/-! ### A send in flight, and a character collected -/

theorem exec_txEvent_sending {s : State} (he : s.en = true) (hb : s.txBusy = true) (h : s.txPos < s.txLen) :
    exec .txEvent s = txNext (clearOutputs s) := by
  rw [exec, execTxEvent, if_pos (by simp [he, hb]), if_pos h]

/-- A ring that holds `CAP` bytes or more takes no byte (R93, log 7). -/
theorem acceptAndPush_of_full (d : Byte) {s : State} (h : s.params.cap ≤ occupancy s) :
    acceptAndPush d s = enterFault overflowCause s := by
  rw [acceptAndPush, push_none.2 h]

theorem exec_rxData_collecting {s : State} (he : s.en = true) (hs : s.status ≠ .faulted) (ha : s.af = false)
    (d : Byte) : exec (.rxData d) s = .next (acceptAndPush d (clearOutputs s)) := by
  rw [exec, execRxData, lineEvent_on he, unlessFaulted, if_neg (by simpa using hs), dataChar, if_neg (by simp [ha])]

/-- Settles O11: over too few buffered bytes the peek or the retirement answers `none`, the fetch index is beyond
`TXBUF`, and a push overflows from `CAP` bytes on. -/
theorem impossibleCallsStopByName : Obligations.ImpossibleCallsStopByName := by
  unfold Obligations.ImpossibleCallsStopByName
  simp only [buffered_eq_occupancy]
  refine ⟨fun s n he hs hout => ?_, fun _ => exec_packetDone_short,
    fun s he hs h6 hpast => ?_, fun s he hb hlen hcap => ?_, fun s d he hs ha hfull => ?_⟩
  · by_cases h6 : occupancy s < 6
    · exact exec_currentFrame_short he hs h6 n
    · obtain ⟨hbeyond, hframe⟩ := hout.resolve_left h6
      rw [exec_currentFrame_complete he hs (not_lt.1 h6), if_neg (not_le.2 hframe),
        peekWindow_none (Nat.lt_succ_of_le hbeyond)]
      rfl
  · rw [exec_packetDone_complete he hs h6, advanceRead_none (s := clearOutputs s) hpast]
    rfl
  · rw [exec_txEvent_sending he hb hlen]
    exact txNext_fault (s := clearOutputs s) hcap
  · rw [exec_rxData_collecting he hs ha, acceptAndPush_of_full d (s := clearOutputs s) hfull.le]
    rfl

end Sys2Proof.Machine
end

section
/-! The statements of 30_encoding.md: decoder and encoder undo each other up to the ignored bits, and the
pseudo-operation `send` puts its frame on the line. The second part also says what any transmission that was started
puts there, whichever command started it. -/

namespace Sys2Proof

open Sys2Proof.Machine Sys2Proof.Claims

/-! ### The received-character words -/

/-- `accept` is membership in the addresses of this node (R123). -/
theorem accept_iff (p : Params) (a : Byte) : accept p a = true ↔ a = p.ownAddr ∨ a ∈ p.groupAddrs := by
  simp [accept]

/-- The statements' received word, by arithmetic, is the one built from the fields (R65). -/
theorem rxStimulus_eq (dor fe pe m : Bool) (data : Byte) :
    rxStimulus dor fe pe m data = .rx (rxWord dor fe pe m data) := by
  rw [rxStimulus, ← rxWord_toNat, BitVec.ofNat_toNat, BitVec.setWidth_eq]

/-- Every received word is the word of a well-formed operation: the flags say of which (R67, R116, R123). -/
theorem exists_encode_eq_rx (p : Params) (w : BitVec 12) : ∃ i : Instr, i.wf p = true ∧ encode i = .rx w := by
  rw [← rxWord_fields w]
  generalize rxDataBits w = data
  cases rxDor w
  case true => exact ⟨.rxErrOverrun _ _ _ data, rfl, rfl⟩
  case false =>
    cases rxFe w
    case true => exact ⟨.rxErrFraming _ _ data, rfl, rfl⟩
    case false =>
      cases rxPe w
      case true => exact ⟨.rxErrParity _ data, rfl, rfl⟩
      case false =>
        cases rxM w
        case false => exact ⟨.rxData data, rfl, rfl⟩
        case true =>
          cases ha : accept p data
          · exact ⟨.rxAddrMismatch data, by simp [Instr.wf, ha], rfl⟩
          · exact ⟨.rxAddrMatch data, ha, rfl⟩

/-! ### The command words -/

theorem exists_eq_cmdWord (w : BitVec 36) : ∃ op a b n, w = cmdWord op a b n :=
  ⟨_, _, _, _, (cmdWord_fields w).symm⟩

/-- A mask built from fields masks field by field. -/
theorem cmdWord_and_cmdWord (op op' : BitVec 4) (a b a' b' : Byte) (n n' : BitVec 16) :
    cmdWord op a b n &&& cmdWord op' a' b' n' = cmdWord (op &&& op') (a &&& a') (b &&& b') (n &&& n') := by
  show (op ++ a ++ b ++ n : BitVec (4 + 8 + 8 + 16)) &&& (op' ++ a' ++ b' ++ n') = _
  rw [BitVec.and_append, BitVec.and_append, BitVec.and_append]
  rfl

/-- The masks of the four kinds of commands: those that use every field, `n` alone, `a` and `n`, or none (R67). -/
theorem cmdWord_and_mask (op : BitVec 4) (a b : Byte) (n : BitVec 16) :
    cmdWord op a b n &&& 0xFFFFFFFFF#36 = cmdWord op a b n ∧
    cmdWord op a b n &&& 0xF0000FFFF#36 = cmdWord op 0 0 n ∧
    cmdWord op a b n &&& 0xFFF00FFFF#36 = cmdWord op a 0 n ∧
    cmdWord op a b n &&& 0xF00000000#36 = cmdWord op 0 0 0 := by
  have hop : op &&& 0xF#4 = op := BitVec.and_allOnes
  have ha (x : Byte) : x &&& 0xFF#8 = x := BitVec.and_allOnes
  have hn : n &&& 0xFFFF#16 = n := BitVec.and_allOnes
  have mask (a' b' : Byte) (n' : BitVec 16) :
      cmdWord op a b n &&& cmdWord 0xF#4 a' b' n' = cmdWord op (a &&& a') (b &&& b') (n &&& n') := by
    rw [cmdWord_and_cmdWord, hop]
  exact ⟨(mask 0xFF 0xFF 0xFFFF).trans (by simp [ha, hn]), (mask 0 0 0xFFFF).trans (by simp [hn]),
    (mask 0xFF 0 0xFFFF).trans (by simp [ha, hn]), (mask 0 0 0).trans (by simp)⟩

/-- Every command word starts a well-formed operation: only the address rows have a condition. -/
theorem wf_decodeCmd (p : Params) (w : BitVec 36) : (decodeCmd w).wf p = true := by
  unfold decodeCmd
  split <;> rfl

/-- By the sixteen operation codes: the mask of each leaves the fields its operation carries (R66, R67). -/
theorem encode_decodeCmd (w : BitVec 36) : encode (decodeCmd w) = .cmd (w &&& usedBits (w.toNat / 2 ^ 32)) := by
  obtain ⟨op, a, b, n, rfl⟩ := exists_eq_cmdWord w
  rw [← cmdOp_toNat, cmdOp_cmdWord]
  obtain ⟨k, hk, rfl⟩ : ∃ k < 16, op = BitVec.ofNat 4 k := ⟨op.toNat, op.isLt, by simp⟩
  interval_cases k <;> simp [decodeCmd, usedBits, encode, cmdWord_and_mask]

/-- Settles O3: operation by operation, the round trips of Laws/PerInstr. -/
theorem decodeInvertsEncode : Obligations.DecodeInvertsEncode := by
  intro p i h
  cases i with
  | nop => exact Laws.RoundTrip.nop p h
  | busInit => exact Laws.RoundTrip.busInit p h
  | busStatus => exact Laws.RoundTrip.busStatus p h
  | currentFrame n => exact Laws.RoundTrip.currentFrame n p h
  | packetDone => exact Laws.RoundTrip.packetDone p h
  | skipByte => exact Laws.RoundTrip.skipByte p h
  | send a b n => exact Laws.RoundTrip.send a b n p h
  | sendRaw n => exact Laws.RoundTrip.sendRaw n p h
  | encodeFrame a b n => exact Laws.RoundTrip.encodeFrame a b n p h
  | recover => exact Laws.RoundTrip.recover p h
  | occupancy => exact Laws.RoundTrip.occupancy p h
  | txbufWrite a n => exact Laws.RoundTrip.txbufWrite a n p h
  | faultCause => exact Laws.RoundTrip.faultCause p h
  | reservedD => exact Laws.RoundTrip.reservedD p h
  | reservedE => exact Laws.RoundTrip.reservedE p h
  | reservedF => exact Laws.RoundTrip.reservedF p h
  | rxErrOverrun fe pe m data => exact Laws.RoundTrip.rxErrOverrun fe pe m data p h
  | rxErrFraming pe m data => exact Laws.RoundTrip.rxErrFraming pe m data p h
  | rxErrParity m data => exact Laws.RoundTrip.rxErrParity m data p h
  | rxAddrMatch data => exact Laws.RoundTrip.rxAddrMatch data p h
  | rxAddrMismatch data => exact Laws.RoundTrip.rxAddrMismatch data p h
  | rxData data => exact Laws.RoundTrip.rxData data p h
  | txEvent => exact Laws.RoundTrip.txEvent p h
  | reset => exact Laws.RoundTrip.reset p h

/-- Settles O2: a command by its operation code, a received word by the round trip of the case its flags name. -/
theorem portWordsDecodeByTheirFields : Obligations.PortWordsDecodeByTheirFields := by
  refine ⟨fun p w => ?_, fun p fe pe m data => ?_, fun p => ⟨rfl, rfl⟩⟩
  · simp only [decode, decodeCmd, ← cmdOp_toNat, ← cmdA_eq, ← cmdB_eq, ← cmdN_eq]
    refine ⟨?_, ?_, ?_, ?_, ?_, ?_, ?_, ?_, ?_, ?_, ?_, ?_, ?_, ?_, ?_, ?_⟩ <;> intro h <;> simp only [h]
  · simp only [rxStimulus_eq, ← accept_iff, Bool.not_eq_true]
    exact ⟨Laws.RoundTrip.rxErrOverrun fe pe m data p rfl, Laws.RoundTrip.rxErrFraming pe m data p rfl,
      Laws.RoundTrip.rxErrParity m data p rfl, Laws.RoundTrip.rxAddrMatch data p,
      fun h => Laws.RoundTrip.rxAddrMismatch data p (by simp [Instr.wf, h]), Laws.RoundTrip.rxData data p rfl⟩

/-- Settles O4: a received word is the word of a well-formed operation, so the round trip of O3 turned round gives it
back; a command word is settled by its operation code. -/
theorem reencodingKeepsEveryUsedBit : Obligations.ReencodingKeepsEveryUsedBit := by
  intro p
  have hrx (w : BitVec 12) : (decode p (.rx w)).wf p = true ∧ encode (decode p (.rx w)) = .rx w := by
    obtain ⟨i, hwf, hi⟩ := exists_encode_eq_rx p w
    rw [← hi, decodeInvertsEncode p i hwf]
    exact ⟨hwf, rfl⟩
  refine ⟨fun w => ?_, encode_decodeCmd, fun w => (hrx w).2⟩
  cases w with
  | cmd w => exact wf_decodeCmd p w
  | rx w => exact (hrx w).1
  | txEvent => rfl
  | reset => rfl

/-- Settles O1: each word is decoded at the parameters of the test vectors. -/
theorem testVectorWordsDecode : Obligations.TestVectorWordsDecode := by
  unfold Obligations.TestVectorWordsDecode
  decide

end Sys2Proof

namespace Sys2Proof.Machine

open Sys2Proof.Claims

/-! ### A transmission, from the command that starts it to its last event -/

theorem exec_txEvent_emits {s : State} (he : s.en = true) (hb : s.txBusy = true) (h : s.txPos < s.txLen)
    (hc : s.txLen ≤ s.params.txcap) : exec .txEvent s = .next { clearOutputs s with
      tx := some (txWord false (readTxbuf s s.txPos)), txPos := s.txPos + 1
      lineLog := s.lineLog ++ [.ch (readTxbuf s s.txPos) false] } := by
  rw [exec_txEvent_sending he hb h]
  exact txNext_eq (s := clearOutputs s) (Nat.lt_of_lt_of_le h hc)

theorem exec_txEvent_finishes {s : State} (he : s.en = true) (hb : s.txBusy = true) (h : s.txLen ≤ s.txPos) :
    exec .txEvent s = .next { clearOutputs s with
      de := false, txBusy := false, lineLog := if s.de then s.lineLog ++ [.de false] else s.lineLog } := by
  rw [exec, execTxEvent, if_pos (by simp [he, hb]), if_neg (Nat.not_lt.2 h), txFinish_eq]
  rfl

theorem drop_txBytes {s : State} {i n : Nat} (h : i < n) :
    (txBytes s n).drop i = readTxbuf s i :: (txBytes s n).drop (i + 1) := by
  rw [List.drop_eq_getElem_cons (by simpa [txBytes] using h)]
  simp [txBytes]

theorem txBytes_congr {s t : State} (h : t.txbuf = s.txbuf) (n : Nat) : txBytes t n = txBytes s n :=
  List.map_congr_left fun i _ => by rw [readTxbuf, readTxbuf, h]

/-- The line log of `n` bytes of `TXBUF`: what `start` logs, then what the transmit events log. -/
theorem transmission_txBytes {s : State} {n : Nat} (h : 1 ≤ n) : transmission (txBytes s n) =
    [.de true, .ch (readTxbuf s 0) true] ++ ((txBytes s n).drop 1).map (.ch · false) ++ [.de false] := by
  have hcons := drop_txBytes (s := s) (i := 0) h
  rw [List.drop_zero] at hcons
  rw [transmission, hcons]
  rfl

/-- A send in flight with `k` bytes to go ends after `k + 1` events, the bytes on the line unmarked (R138 to R140). -/
theorem execAll_txEvents {k : Nat} {s : State} (he : s.en = true) (hb : s.txBusy = true) (hd : s.de = true)
    (hk : s.txPos + k = s.txLen) (hc : s.txLen ≤ s.params.txcap) :
    execAll (List.replicate (k + 1) .txEvent) s = .next { clearOutputs s with
      txPos := s.txLen, txBusy := false, de := false
      lineLog := s.lineLog ++ ((txBytes s s.txLen).drop s.txPos).map (.ch · false) ++ [.de false] } := by
  induction k generalizing s with
  | zero =>
    have hdrop : (txBytes s s.txLen).drop s.txPos = [] := List.drop_eq_nil_of_le (by simp [txBytes]; omega)
    rw [List.replicate_succ, execAll_cons_next (exec_txEvent_finishes he hb (by omega)), hdrop, ← hk]
    simp [execAll, hd, clearOutputs]
  | succ k ih =>
    have hlt : s.txPos < s.txLen := by omega
    rw [List.replicate_succ, execAll_cons_next (exec_txEvent_emits he hb hlt hc),
      ih, drop_txBytes hlt]
    · simp only [clearOutputs, List.map_cons, List.append_assoc]
      rfl
    · exact he
    · exact hb
    · exact hd
    · show s.txPos + 1 + k = s.txLen
      omega
    · exact hc

/-- A transmission of `n` bytes of `TXBUF`, whichever command starts it from the idle line (R136, R141). -/
theorem execAll_started {i : Instr} {s u : State} {n : Nat} (hi : exec i s = andThen (start n u) (answerOk 0#17))
    (he : u.en = true) (hd : u.de = false) (h1 : 1 ≤ n) (hc : n ≤ u.params.txcap) :
    execAll (i :: List.replicate n .txEvent) s = .next { clearOutputs u with
      txPos := n, txLen := n, txBusy := false, de := false
      lineLog := u.lineLog ++ transmission (txBytes u n) } := by
  obtain ⟨k, rfl⟩ := Nat.exists_eq_add_of_le' h1
  rw [start_eq] at hi
  rw [execAll_cons_next hi, execAll_txEvents, transmission_txBytes h1]
  · simp only [hd, Bool.false_eq_true, if_false, respond_lineLog, List.append_assoc]
    rfl
  · exact he
  · rfl
  · rfl
  · exact Nat.add_comm 1 k
  · exact hc

/-! ### `send(destination, source, payload)` -/

theorem exec_txbufWrite_stores {s : State} (he : s.en = true) (hb : s.txBusy = false) {n : BitVec 16}
    (h : n.toNat < s.params.txcap) (a : Byte) : exec (.txbufWrite a n) s =
      answerOk 0#17 { clearOutputs s with txbuf := Memory.write s.txbuf n.toNat a } := by
  rw [exec, execTxbufWrite, ifInit_on he, ifNotBusy_off hb, if_neg (Nat.not_le.2 h)]

theorem exec_send_starts {s : State} (he : s.en = true) (hb : s.txBusy = false) {n : BitVec 16}
    (h : n.toNat ≤ s.params.maxPayload) (a b : Byte) : exec (.send a b n) s =
      andThen (start (6 + n.toNat) (writeHeader a b n.toNat (clearOutputs s))) (answerOk 0#17) := by
  rw [exec, execSend, ifInit_on he, ifNotBusy_off hb, if_neg (Nat.not_lt.2 h)]

/-- The expansion of a write of consecutive bytes writes them, and leaves an answer at most (R71, R131). -/
theorem execAll_writeBytes {s : State} (he : s.en = true) (hb : s.txBusy = false) (hw : s.params.txcap ≤ 2 ^ 16)
    {i : Nat} {bytes : List Byte} (h : i + bytes.length ≤ s.params.txcap) :
    ∃ r x, execAll (writeBytes i bytes) s =
      .next { s with txbuf := Memory.writeList s.txbuf i bytes, rsp := r, tx := x } := by
  induction bytes generalizing i s with
  | nil => exact ⟨s.rsp, s.tx, rfl⟩
  | cons b bytes ih =>
    rw [List.length_cons] at h
    have hi : (BitVec.ofNat 16 i).toNat = i := Nat.mod_eq_of_lt (by omega)
    rw [writeBytes, execAll_cons_next (exec_txbufWrite_stores he hb (by omega) b), hi]
    exact ih (s := respond .ok 0#17 { clearOutputs s with txbuf := Memory.write s.txbuf i b }) he hb hw
      (by show i + 1 + bytes.length ≤ s.params.txcap; omega)

/-- A header written before a payload makes the frame. -/
theorem txBytes_header_payload (s : State) {hdr payload : List Byte} (m : Memory) :
    txBytes { s with txbuf := Memory.writeList (Memory.writeList m hdr.length payload) 0 hdr }
      (hdr ++ payload).length = hdr ++ payload := by
  apply List.ext_getElem (by simp [txBytes])
  intro i _ hi
  rw [List.length_append] at hi
  simp only [txBytes, List.getElem_map, List.getElem_range, readTxbuf, Memory.read_writeList]
  by_cases hh : i < hdr.length
  · rw [if_pos (by omega), List.getElem_append_left hh]
    simp [hh]
  · rw [if_neg (by omega), if_pos (by omega), List.getElem_append_right (by omega),
      List.getElem?_eq_getElem (by omega), Option.getD_some]

theorem encodedFrame_some {p : Params} {d src : Byte} {payload f : List Byte}
    (h : encodedFrame p d src payload = some f) :
    payload.length ≤ p.maxPayload ∧ f = headerBytes d src payload.length ++ payload := by
  unfold encodedFrame at h
  split_ifs at h with hover
  exact ⟨by omega, (Option.some.inj h).symm⟩

/-- R4 bounds `TXBUF` by the ring, and the ring by 65536 bytes: every index fits the operand `n`. -/
theorem txcap_le_of_wf {p : Params} (h : p.WF) : p.txcap ≤ 2 ^ 16 := by
  obtain ⟨-, hk, hmax, -⟩ := h
  have hcap : p.cap ≤ 2 ^ 16 := Nat.pow_le_pow_right (by decide) hk
  rw [Params.txcap]
  omega

/-- Settles O38: the writes put the payload behind the header's place, `SEND` writes the header and starts, and the
transmission is that of the frame now in `TXBUF`. -/
theorem sendFrameTransmitsTheEncodedFrame : Obligations.SendFrameTransmitsTheEncodedFrame := by
  intro s d src payload f hp he hb hd hf
  obtain ⟨hmax, rfl⟩ := encodedFrame_some hf
  have hcap := txcap_le_of_wf hp
  have hfit : 6 + payload.length ≤ s.params.txcap := by rw [Params.txcap]; omega
  have hn : (BitVec.ofNat 16 payload.length).toNat = payload.length := Nat.mod_eq_of_lt (by omega)
  obtain ⟨r, x, hwrite⟩ := execAll_writeBytes he hb hcap hfit
  have hframe := txBytes_header_payload s (hdr := headerBytes d src payload.length) (payload := payload) s.txbuf
  have hsend := exec_send_starts (s := { s with
    txbuf := Memory.writeList s.txbuf 6 payload, rsp := r, tx := x }) he hb (hn.trans_le hmax) d src
  rw [hn] at hsend
  refine ⟨_, ?_, hframe⟩
  rw [List.length_append, headerBytes_length] at hframe ⊢
  rw [sendFrame, List.append_assoc, execAll_append, hwrite]
  refine (execAll_started hsend he hd (by omega) hfit).trans ?_
  rw [← hframe]
  simp only [clearOutputs, silent, hd, hb]
  rfl

end Sys2Proof.Machine
end

section
/-! The statements of 40_frame_codec.md: the header and the frame the encoder builds, what the validator answers on
them and on a header with one byte changed, and the command that writes the header into `TXBUF`. -/

namespace Sys2Proof.Machine

open Sys2Proof.Claims

/-! ### The checksum and the header -/

/-- Settles O49, by the definition, which reduces the sum to a byte. -/
theorem headerChecksumIsTheSum : Obligations.HeaderChecksumIsTheSum :=
  fun d s p lh ll => BitVec.toNat_ofNat (d.toNat + s.toNat + p.toNat + lh.toNat + ll.toNat) 8

/-- The statements' header, by arithmetic on the length, is the one the model writes. -/
theorem header_eq_headerBytes (a b : Byte) (n : Nat) : header a b n = headerBytes a b n := by
  have hlo : BitVec.ofNat 8 (n % 256) = lengthLo n := BitVec.eq_of_toNat_eq (by simp [lengthLo])
  have hsum : BitVec.ofNat 8 (a.toNat + b.toNat + 255 + n / 256 + n % 256) =
      headerChecksum a b pchk (lengthHi n) (lengthLo n) := by
    apply BitVec.eq_of_toNat_eq
    simp only [headerChecksum, pchk, lengthHi, lengthLo, BitVec.toNat_ofNat]
    omega
  rw [header, hsum, hlo]
  rfl

/-! ### `encode_frame` -/

/-- Exactly the payloads within both bounds have a frame (R82). -/
theorem encodedFrame_eq_some_iff {p : Params} {d src : Byte} {payload f : List Byte} :
    encodedFrame p d src payload = some f ↔
      payload.length < 65536 ∧ payload.length ≤ p.maxPayload ∧ f = headerBytes d src payload.length ++ payload := by
  unfold encodedFrame
  split_ifs with hover
  · rw [false_iff]
    omega
  · rw [Option.some.injEq, eq_comm (a := f)]
    exact ⟨fun hf => ⟨by omega, by omega, hf⟩, fun ⟨_, _, hf⟩ => hf⟩

theorem encodedFrame_oversize {p : Params} {payload : List Byte} (h : p.maxPayload < payload.length) (d src : Byte) :
    encodedFrame p d src payload = none :=
  if_pos (.inr h)

/-- Settles O50: R4 keeps `MAX_PAYLOAD` below 65536, so the bound of the length field excludes nothing more. -/
theorem encodeFrameBuildsTheFrame : Obligations.EncodeFrameBuildsTheFrame := by
  intro p d src payload hp
  refine ⟨fun hfit => ?_, fun hover => encodedFrame_oversize hover d src⟩
  have hcap := txcap_le_of_wf hp
  rw [Params.txcap] at hcap
  rw [header_eq_headerBytes, encodedFrame_eq_some_iff]
  exact ⟨by omega, hfit, rfl⟩

/-! ### `validate_header` -/

/-- Settles O51: a frame is the header this node writes for a length that fits, and then the payload. -/
theorem encodedFramesValidate : Obligations.EncodedFramesValidate := by
  intro p d src payload f rest hf
  obtain ⟨hlen, -, rfl⟩ := encodedFrame_eq_some_iff.1 hf
  refine ⟨?_, ?_, ?_⟩
  · rw [List.append_assoc]
    exact validateHeader_headerBytes d src hlen (payload ++ rest)
  · rw [List.length_append, headerBytes_length]
  · exact List.drop_left' (headerBytes_length d src payload.length)

/-- The checksum is a sum, in which no single term can change unnoticed; byte 2 is compared with it (R83, R86). -/
theorem validateHeader_set_ne {h : List Byte} {q : ParsedHeader} (hv : validateHeader h = .valid q) {i : Nat}
    (hi : i < h.length) (h6 : i < 6) {x : Byte} (hx : x ≠ h[i]) : validateHeader (h.set i x) = .mismatch := by
  match h, hv with
  | d :: s :: c :: p :: hi :: lo :: t, hv =>
    have hc : d + s + p + hi + lo = c := by
      by_contra hne
      simp [validateHeader, headerChecksum_eq_add, hne] at hv
    -- One term of the sum is replaced, or byte 2 itself: either way the two sides differ as the two bytes do.
    interval_cases i <;>
      simpa [validateHeader, headerChecksum_eq_add, ← hc, eq_comm] using hx

/-- A byte with one of its bits flipped is another byte. -/
theorem xor_twoPow_ne (x : Byte) {bit : Nat} (h : bit < 8) : x ^^^ BitVec.twoPow 8 bit ≠ x := by
  intro heq
  have hbit := congrArg (·.getLsbD bit) heq
  simp [h] at hbit

/-- Settles O52: the frame validates (O51), and a header that validates does not once one of its bytes differs. -/
theorem singleBitErrorsAreDetected : Obligations.SingleBitErrorsAreDetected := by
  intro p d src payload f i bit hi hf h6 hbit
  obtain ⟨hv, -, -⟩ := encodedFramesValidate p d src payload f [] hf
  rw [List.append_nil] at hv
  exact validateHeader_set_ne hv hi h6 (xor_twoPow_ne f[i] hbit)

/-! ### `ENCODE_FRAME` -/

/-- The response word as the statements write it (R68). -/
theorem rspWord_eq_ofNat (c : RspCode) (data : BitVec 17) :
    rspWord c data = BitVec.ofNat 21 (c.code.toNat * 2 ^ 17 + data.toNat) := by
  rw [← rspWord_toNat, BitVec.ofNat_toNat, BitVec.setWidth_eq]

theorem reject_eq_answered (c : RspCode) (s : State) : reject c s = .next (answered c.code.toNat 0 s) := by
  rw [reject_eq, rspWord_eq_ofNat]
  rfl

/-- `TXBUF` after the header is written: its six bytes, and behind them what stood there (R84, R134). -/
theorem readTxbuf_writeHeader (a b : Byte) (n : Nat) (s : State) (i : Nat) :
    readTxbuf (writeHeader a b n s) i = (headerBytes a b n)[i]?.getD (readTxbuf s i) := by
  rw [readTxbuf, writeHeader_txbuf, Memory.read_writeList, Nat.zero_add, Nat.sub_zero]
  by_cases hi : i < (headerBytes a b n).length
  · rw [if_pos ⟨Nat.zero_le i, hi⟩, List.getElem?_eq_getElem hi]
    rfl
  · rw [if_neg (by omega), List.getElem?_eq_none (Nat.not_lt.1 hi)]
    rfl

theorem exec_encodeFrame_stores {s : State} (he : s.en = true) (hb : s.txBusy = false) {n : BitVec 16}
    (h : n.toNat ≤ s.params.maxPayload) (a b : Byte) : exec (.encodeFrame a b n) s =
      answerOk 0#17 (writeHeader a b n.toNat (clearOutputs s)) := by
  rw [exec, execEncodeFrame, ifInit_on he, ifNotBusy_off hb, if_neg (Nat.not_lt.2 h)]

/-- Settles O33: the three checks of R84 in their order, then the header's write. -/
theorem encodeFrameWritesTheHeader : Obligations.EncodeFrameWritesTheHeader := by
  intro s a b n
  refine ⟨fun he => ?_, fun he hb => ?_, fun he hb hover => ?_, fun he hb hfit => ?_⟩
  · rw [exec, execEncodeFrame, ifInit_off he]
    exact reject_eq_answered .errNotInit s
  · rw [exec, execEncodeFrame, ifInit_on he, ifNotBusy_on hb]
    exact reject_eq_answered .errBusy s
  · rw [exec, execEncodeFrame, ifInit_on he, ifNotBusy_off hb, if_pos hover]
    exact reject_eq_answered .errOversize s
  · refine ⟨Memory.writeList s.txbuf 0 (headerBytes a b n.toNat), ?_, fun i => ?_⟩
    · rw [exec_encodeFrame_stores he hb hfit, answerOk_eq, rspWord_eq_ofNat]
      rfl
    · rw [header_eq_headerBytes]
      exact readTxbuf_writeHeader a b n.toNat s i

end Sys2Proof.Machine
end

section
/-! The statements of 41_rx_ring.md: the ring refines a bounded first-in first-out queue, `OCCUPANCY` answers its
length, and under the invariant no rule reads or retires beyond the buffered bytes. -/

namespace Sys2Proof.Machine

open Sys2Proof.Claims

/-! ### The ring as a bounded queue -/

theorem push_params {d : Byte} {s t : State} (h : push d s = some t) : t.params = s.params := by
  obtain ⟨-, rfl⟩ := push_some h
  rfl

theorem advanceRead_of_le {n : Nat} {s : State} (h : n ≤ occupancy s) :
    advanceRead n s = some { s with rd := (s.rd + n) % s.params.cursorMod } :=
  if_pos h

/-- Retiring fails exactly beyond the buffered bytes (R95). -/
theorem advanceRead_eq_none_iff {n : Nat} {s : State} : advanceRead n s = none ↔ occupancy s < n := by
  simp [advanceRead]

/-- Peeking at all there is gives the queue (R94, R97). -/
theorem peekWindow_all (s : State) : peekWindow s 0 (occupancy s) = some (queue s) := by
  rw [peekWindow_some (Nat.zero_add _).le, List.drop_zero, ← queue_length, List.take_length]

/-- The statements' buffered bytes are the queue. -/
theorem map_frameByte_eq_queue (s : State) : (List.range (buffered s)).map (frameByte s) = queue s := by
  rw [buffered_eq_occupancy]
  rfl

/-- The ring, seen through its queue, runs as a queue of capacity `CAP` does: each use succeeds on both or on neither,
and a use that succeeds on both leaves the same bytes. -/
theorem ringRun_map_queue (us : List RingUse) (s : State) :
    (ringRun us s).map queue = fifoRun s.params.cap us (queue s) := by
  induction us generalizing s with
  | nil => rfl
  | cons u us ih =>
    cases u with
    | push b =>
      rw [ringRun, fifoRun, queue_length]
      cases h : push b s with
      | none =>
        rw [if_neg (Nat.not_lt.2 (push_none.1 h))]
        rfl
      | some t =>
        rw [if_pos (push_some h).1, ← queue_push h, ← push_params h]
        exact ih t
    | advance n =>
      rw [ringRun, fifoRun, queue_length]
      cases h : advanceRead n s with
      | none =>
        rw [if_neg (Nat.not_le.2 (advanceRead_eq_none_iff.1 h))]
        rfl
      | some t =>
        rw [if_pos (advanceRead_some h).1, ← queue_advanceRead h, ← (advanceRead_params_inputs h).1]
        exact ih t

/-- Settles O53: the bytes peeked are the queue, and the queue runs as the statement's does. -/
theorem ringIsAFifo : Obligations.RingIsAFifo := by
  intro us s
  have hpeek : (fun t => peekWindow t 0 (buffered t)) = some ∘ queue := by
    funext t
    rw [buffered_eq_occupancy, peekWindow_all, Function.comp_apply]
  rw [hpeek, ← Option.map_map, ringRun_map_queue, map_frameByte_eq_queue, Params.cap]

/-! ### `OCCUPANCY` -/

theorem answerOk_eq_answered (d : BitVec 17) (s : State) :
    answerOk d (clearOutputs s) = .next (answered 0 d.toNat s) := by
  rw [answerOk_eq, rspWord_eq_ofNat]
  rfl

/-- In the range of R4 the occupancy fits the 17 data bits of a response (R68, R91). -/
theorem occupancy_lt_of_k_le {s : State} (h : s.params.k ≤ 16) : occupancy s < 2 ^ 17 :=
  (occupancy_lt s).trans_le (Nat.pow_le_pow_right Nat.two_pos (Nat.succ_le_succ h))

/-- Settles O21: the enable check, then the occupancy, which the data field holds unreduced. -/
theorem occupancyReadsTheCursorDifference : Obligations.OccupancyReadsTheCursorDifference := by
  intro s
  refine ⟨fun he => ?_, fun he hk => ?_⟩
  · rw [exec, execOccupancy, ifInit_off he]
    exact reject_eq_answered .errNotInit s
  · rw [exec, execOccupancy, ifInit_on he, answerOk_eq_answered, BitVec.toNat_ofNat,
      Nat.mod_eq_of_lt (occupancy_lt_of_k_le hk), buffered_eq_occupancy]

/-! ### Answers that go on -/

/-- The answer is a next state, neither a fault nor a refusal. -/
abbrev GoesOn (a : Answer) : Prop := ∃ t, a = .next t

theorem goesOn_reject (c : RspCode) (s : State) : GoesOn (reject c s) := ⟨_, rfl⟩

theorem goesOn_answerOk (d : BitVec 17) (s : State) : GoesOn (answerOk d s) := ⟨_, rfl⟩

theorem goesOn_ite {c : Prop} [Decidable c] {a b : Answer} (ha : c → GoesOn a) (hb : ¬c → GoesOn b) :
    GoesOn (if c then a else b) := by
  split_ifs with h
  · exact ha h
  · exact hb h

/-- A check that refuses by an error code answers a next state too (R160); where it passes, the rest must go on. -/
theorem goesOn_rejectIf {c : Prop} [Decidable c] {e : RspCode} {s : State} {a : Answer} (h : ¬c → GoesOn a) :
    GoesOn (if c then reject e s else a) :=
  goesOn_ite (fun _ => goesOn_reject e s) h

theorem goesOn_ifInit {s : State} {a : Answer} (h : GoesOn a) : GoesOn (ifInit s a) :=
  goesOn_ite (fun _ => h) fun _ => goesOn_reject .errNotInit s

theorem goesOn_ifNotBusy {s : State} {a : Answer} (h : GoesOn a) : GoesOn (ifNotBusy s a) :=
  goesOn_rejectIf fun _ => h

/-- A micro-operation called inside its precondition is not refused. -/
theorem goesOn_orRefuse {α : Type} {r : Refusal} {o : Option α} {x : α} {f : α → Answer} (ho : o = some x)
    (hf : GoesOn (f x)) : GoesOn (orRefuse r o f) := by
  rwa [ho]

/-- Starting a send fetches index 0, which every `TXBUF` has (R4, R44). -/
theorem goesOn_start (n : Nat) (s : State) : GoesOn (andThen (start n s) (answerOk 0#17)) := by
  rw [start_eq]
  exact goesOn_answerOk _ _

/-! ### The operations with a precondition -/

/-- Behind a complete frame all its bytes are buffered (R17, R101). -/
theorem frame_is_buffered {s : State} (h : StatusCurrent s) (hs : s.status = .completeFrame) :
    6 ≤ occupancy s ∧ frameLengthOf ((queue s).take 6) ≤ occupancy s := by
  have hd : detectBytes (queue s) = .completeFrame := by rw [← detect_eq, ← h (by simp [hs]), hs]
  obtain ⟨h6, hlen⟩ := detectBytes_complete hd
  rw [frameLengthOf_take h6, ← queue_length]
  exact ⟨h6, hlen⟩

/-- The header and byte `n` of a complete frame lie in the window, as `n` is below the frame's length (R94, U3). -/
theorem goesOn_currentFrame {s : State} (h : StatusCurrent s) (n : BitVec 16) : GoesOn (exec (.currentFrame n) s) := by
  refine goesOn_ifInit (goesOn_ite (fun hs => ?_) fun _ => goesOn_reject _ _)
  obtain ⟨h6, hlen⟩ := frame_is_buffered h hs
  refine goesOn_orRefuse (peekWindow_some h6) (goesOn_rejectIf fun hn => ?_)
  exact goesOn_orRefuse (peekWindow_one ((not_le.1 hn).trans_le hlen)) (goesOn_answerOk _ _)

/-- A complete frame's length is at most the occupancy (R95, U4). -/
theorem goesOn_packetDone {s : State} (h : StatusCurrent s) : GoesOn (exec .packetDone s) := by
  refine goesOn_ifInit (goesOn_ite (fun hs => ?_) fun _ => goesOn_reject _ _)
  obtain ⟨h6, hlen⟩ := frame_is_buffered h hs
  refine goesOn_orRefuse (peekWindow_some h6) ?_
  exact goesOn_orRefuse (advanceRead_of_le (s := clearOutputs s) hlen) (goesOn_answerOk _ _)

/-- One byte is retired only where one is buffered (R95, R107, U4). -/
theorem goesOn_skipByte (s : State) : GoesOn (exec .skipByte s) := by
  refine goesOn_ifInit (goesOn_rejectIf fun _ => goesOn_rejectIf fun h0 => ?_)
  exact goesOn_orRefuse (advanceRead_of_le (s := clearOutputs s) (Nat.pos_of_ne_zero h0)) (goesOn_answerOk _ _)

/-- `RECOVER` retires exactly what is buffered (R154, U4). -/
theorem goesOn_recover (s : State) : GoesOn (exec .recover s) :=
  goesOn_ifInit (goesOn_ite (fun _ => goesOn_orRefuse (leaveFault_eq (clearOutputs s)) (goesOn_answerOk _ _))
    fun _ => goesOn_reject _ _)

/-- A byte is fetched only below the frame's length, which `TXBUF` holds (R16, R44). -/
theorem goesOn_txEvent {s : State} (h : s.txLen ≤ s.params.txcap) : GoesOn (exec .txEvent s) := by
  refine goesOn_ite (fun _ => goesOn_ite (fun hpos => ?_) fun _ => ⟨_, rfl⟩) fun _ => ⟨_, rfl⟩
  exact ⟨_, txNext_eq (s := clearOutputs s) (hpos.trans_le h)⟩

/-! ### Every step goes on -/

/-- Of the invariant, R17 bounds the reads and retirements of a frame and R16 the fetch of a byte to emit; the other
operations are never called outside a precondition. -/
theorem exec_goesOn (i : Instr) {s : State} (h : BlockInv s) : GoesOn (exec i s) := by
  obtain ⟨-, -, ⟨hcur, -⟩, ⟨-, -, -, -, hlen, -⟩, -⟩ := (blockInv_iff s).1 h
  cases i with
  | currentFrame n => exact goesOn_currentFrame hcur n
  | packetDone => exact goesOn_packetDone hcur
  | skipByte => exact goesOn_skipByte s
  | recover => exact goesOn_recover s
  | txEvent => exact goesOn_txEvent hlen
  | send | sendRaw => exact goesOn_ifInit (goesOn_ifNotBusy (goesOn_rejectIf fun _ => goesOn_start _ _))
  | encodeFrame | txbufWrite =>
    exact goesOn_ifInit (goesOn_ifNotBusy (goesOn_rejectIf fun _ => goesOn_answerOk _ _))
  | occupancy | faultCause => exact goesOn_ifInit (goesOn_answerOk _ _)
  | _ => exact ⟨_, rfl⟩

/-- Settles O10: a step is idle or one operation, which goes on under the invariant. -/
theorem noStepStops : Obligations.NoStepStops := by
  intro s h
  cases hw : s.inputs with
  | nil => exact ⟨s, step_of_inputs_nil hw⟩
  | cons w rest =>
    rw [step_of_inputs_cons hw]
    exact exec_goesOn _ (blockInv_with_inputs h rest)

end Sys2Proof.Machine
end

section
/-! The statements of 42_frame_detector.md: the detector's three steps on the bytes at the read cursor, the commands
that read or retire a frame, and what a pending frame, a frame coming in and a resynchronisation look like over runs. -/

namespace Sys2Proof.Machine

open Sys2Proof.Claims

/-! ### The detector in the statements' terms -/

/-- The header window of the detector: the first six bytes at the read cursor (R94, R101). -/
theorem peekWindow_header {s : State} (h : 6 ≤ occupancy s) : peekWindow s 0 6 =
    some [frameByte s 0, frameByte s 1, frameByte s 2, frameByte s 3, frameByte s 4, frameByte s 5] := by
  rw [peekWindow, if_pos (by omega)]
  simp only [Nat.zero_add]
  rfl

/-- The window validates exactly if the header sum holds, and its length is then that of the statements (R83). -/
theorem validateHeader_window (s : State) :
    validateHeader [frameByte s 0, frameByte s 1, frameByte s 2, frameByte s 3, frameByte s 4, frameByte s 5] =
      if headerSumHolds s then
        .valid ⟨frameByte s 0, frameByte s 1, frameByte s 3, lengthOf (frameByte s 4) (frameByte s 5)⟩
      else .mismatch := by
  simp only [validateHeader, ← BitVec.toNat_inj, headerChecksumIsTheSum _ _ _ _ _]

/-- The three steps of R101 as one equation. -/
theorem detect_eq_steps (s : State) : detect s =
    if occupancy s < 6 then .idle
    else if headerSumHolds s then (if frameLength s ≤ occupancy s then .completeFrame else .idle)
    else .headerChecksumMismatch := by
  unfold detect
  by_cases h6 : occupancy s < 6
  · rw [if_pos h6, if_pos h6]
  · rw [if_neg h6, if_neg h6, peekWindow_header (not_lt.1 h6)]
    simp only [validateHeader_window]
    by_cases hsum : headerSumHolds s
    · simp only [if_pos hsum, lengthOf, frameLength, Nat.add_assoc]
    · simp only [if_neg hsum]

/-- Settles O22: each clause selects one branch of the three steps. -/
theorem detectorFollowsItsThreeSteps : Obligations.DetectorFollowsItsThreeSteps := by
  intro s
  rw [detect_eq_steps, Detects, buffered_eq_occupancy]
  refine ⟨fun h => ?_, fun h6 hsum => ?_, fun h6 hsum hlen => ?_, fun h6 hsum hlen => ?_⟩
  · rw [if_pos h]
  · rw [if_neg (not_lt.2 h6), if_neg hsum]
  · rw [if_neg (not_lt.2 h6), if_pos hsum, if_pos hlen]
  · rw [if_neg (not_lt.2 h6), if_pos hsum, if_neg (not_le.2 hlen)]

/-- `update_status` is the statements' re-evaluation (R102). -/
theorem reevaluated_updateStatus {s : State} (h : s.status ≠ .faulted) : Reevaluated s (updateStatus s) :=
  ⟨detect s, detectorFollowsItsThreeSteps s, updateStatus_eq h⟩

/-! ### `BUS_STATUS` and `CURRENT_FRAME` -/

/-- Settles O20: the answer is `status_o`, whose codes are those of R17. -/
theorem busStatusReadsTheStatus : Obligations.BusStatusReadsTheStatus := by
  intro s
  have hcode : exec .busStatus s = .next (answered 0 s.statusO.toNat s) := by
    rw [exec, execBusStatus, answerOk_eq_answered, BitVec.toNat_setWidth_of_le (by decide), State.statusO]
  refine ⟨?_, hcode⟩
  rw [hcode, State.statusO]
  cases s.status <;> rfl

/-- Behind a complete frame all its bytes are buffered, in the statements' terms (R17, R101). -/
theorem frameLength_le_occupancy {s : State} (h : StatusCurrent s) (hs : s.status = .completeFrame) :
    6 ≤ occupancy s ∧ frameLength s ≤ occupancy s := by
  obtain ⟨h6, hlen⟩ := frame_is_buffered h hs
  exact ⟨h6, frameLengthOf_queue_take h6 ▸ hlen⟩

/-- Settles O23: the checks of R105 in their order, then the byte, which lies in the window. -/
theorem currentFrameReadsTheFrame : Obligations.CurrentFrameReadsTheFrame := by
  intro s n
  refine ⟨fun he => ?_, fun he hs => ?_, fun he hs hcur hn => ?_, fun he hs hcur hn => ?_⟩
  · rw [exec, execCurrentFrame, ifInit_off he]
    exact reject_eq_answered .errNotInit s
  · rw [exec, execCurrentFrame, ifInit_on he, if_neg hs]
    exact reject_eq_answered .errState s
  · obtain ⟨h6, -⟩ := frameLength_le_occupancy hcur hs
    rw [exec_currentFrame_complete he hs h6, if_pos hn]
    exact reject_eq_answered .errRange s
  · obtain ⟨h6, hlen⟩ := frameLength_le_occupancy hcur hs
    rw [exec_currentFrame_complete he hs h6, if_neg (not_le.2 hn), peekWindow_one (hn.trans_le hlen), orRefuse,
      answerOk_eq_answered, BitVec.toNat_setWidth_of_le (by decide)]
    rfl

/-! ### Retiring bytes -/

/-- An answer on `rsp` makes no difference to the detector. -/
theorem respond_updateStatus (c : RspCode) (d : BitVec 17) (s : State) :
    respond c d (updateStatus s) = updateStatus (respond c d s) := by
  have hdet : detect (respond c d s) = detect s := rfl
  unfold updateStatus
  rw [hdet, respond_status]
  split_ifs <;> rfl

/-- `s` after a command that retired `n` bytes, before the detector is run. -/
def afterRetiring (n : Nat) (s : State) : State :=
  { answered 0 0 s with rd := (s.rd + n) % 2 ^ (s.params.k + 1) }

/-- What `PACKET_DONE` and `SKIP_BYTE` share: bytes that are buffered are retired, then the detector runs (R100). -/
theorem retire_eq {n : Nat} {s : State} (h : n ≤ occupancy s) :
    (orRefuse .advancePastWrite (advanceRead n (clearOutputs s)) fun u => answerOk 0#17 (updateStatus u)) =
      .next (updateStatus (afterRetiring n s)) := by
  rw [advanceRead_of_le (s := clearOutputs s) h, orRefuse, answerOk, respond_updateStatus]
  rfl

/-- Settles O24: the checks of R106 in their order, then the frame's bytes are retired. -/
theorem packetDoneRetiresTheFrame : Obligations.PacketDoneRetiresTheFrame := by
  intro s
  refine ⟨fun he => ?_, fun he hs => ?_, fun he hs hcur => ?_⟩
  · rw [exec, execPacketDone, ifInit_off he]
    exact reject_eq_answered .errNotInit s
  · rw [exec, execPacketDone, ifInit_on he, if_neg hs]
    exact reject_eq_answered .errState s
  · obtain ⟨h6, hlen⟩ := frameLength_le_occupancy hcur hs
    have hnf : s.status ≠ .faulted := by simp [hs]
    rw [exec_packetDone_complete he hs h6, retire_eq hlen]
    exact ⟨_, rfl, reevaluated_updateStatus (s := afterRetiring (frameLength s) s) hnf⟩

/-- `SKIP_BYTE` with a byte to skip, outside the fault state (R107). -/
theorem exec_skipByte_retires {s : State} (he : s.en = true) (hs : s.status ≠ .faulted) (h0 : occupancy s ≠ 0) :
    exec .skipByte s = .next (updateStatus (afterRetiring 1 s)) := by
  rw [exec, execSkipByte, ifInit_on he, if_neg hs, if_neg h0]
  exact retire_eq (Nat.one_le_iff_ne_zero.2 h0)

/-- Settles O25: the checks of R107 in their order, then one byte is retired. -/
theorem skipByteRetiresOneByte : Obligations.SkipByteRetiresOneByte := by
  intro s
  rw [buffered_eq_occupancy]
  refine ⟨fun he => ?_, fun he hout => ?_, fun he hs h0 =>
    ⟨_, exec_skipByte_retires he hs h0, reevaluated_updateStatus (s := afterRetiring 1 s) hs⟩⟩
  · rw [exec, execSkipByte, ifInit_off he]
    exact reject_eq_answered .errNotInit s
  · rw [exec, execSkipByte, ifInit_on he]
    by_cases hs : s.status = .faulted
    · rw [if_pos hs]
      exact reject_eq_answered .errState s
    · rw [if_neg hs, if_pos (hout.resolve_left hs)]
      exact reject_eq_answered .errState s

/-! ### What line events leave standing -/

/-- An event of the receive or the transmit line, as opposed to a command or reset (R170). -/
abbrev IsLineEvent (i : Instr) : Prop := i.agent = .rxLine ∨ i.agent = .txLine

/-- Everything a line event can do to the receive side: nothing, fault, or `accept_and_push` a byte. -/
theorem Effect.lineEvent_cases {i : Instr} {s t : State} (e : Effect s i t) (hi : IsLineEvent i) :
    (t.status = s.status ∧ queue t = queue s) ∨ (t.status = .faulted ∧ queue t = queue s) ∨
    (∃ d af, s.status ≠ .faulted ∧ t = acceptAndPush d { clearOutputs s with af := af }) := by
  have hhost : i.agent ≠ .host := by rcases hi with h | h <;> simp [h]
  cases e with
  | ignored | armed | emitted | finished => exact .inl ⟨rfl, rfl⟩
  | faulted => exact .inr (.inl ⟨rfl, rfl⟩)
  | addressed d he hs => exact .inr (.inr ⟨d, false, hs, rfl⟩)
  | collected d he hs ha => exact .inr (.inr ⟨d, s.af, hs, rfl⟩)
  | rejected c h | answered c h => exact absurd h hhost
  | busInit | recovered => exact absurd rfl hhost
  | reset => exact absurd hi (by decide)
  | retired n h => rcases h with rfl | rfl <;> exact absurd rfl hhost
  | stored a bytes ha h => rcases h with ⟨_, _, rfl⟩ | ⟨_, _, _, rfl⟩ <;> exact absurd rfl hhost
  | started bytes n ha h1 h2 h => rcases h with ⟨_, _, _, rfl⟩ | ⟨-, _, rfl⟩ <;> exact absurd rfl hhost

/-- A line event keeps a status other than `Idle`, or faults (R103, R110, R185). -/
theorem exec_lineEvent_status {i : Instr} {s t : State} (h : exec i s = .next t) (hi : IsLineEvent i)
    (hcur : StatusCurrent s) (hs : s.status ≠ .idle) : t.status = s.status ∨ t.status = .faulted := by
  rcases (exec_effect h).lineEvent_cases hi with ⟨hst, -⟩ | ⟨hst, -⟩ | ⟨d, af, hnf, rfl⟩
  · exact .inl hst
  · exact .inr hst
  · exact acceptAndPush_status d (s := { clearOutputs s with af := af }) hnf (hcur hnf) hs

/-- A line event appends to the unretired bytes at most (R97, R108). -/
theorem exec_lineEvent_queue {i : Instr} {s t : State} (h : exec i s = .next t) (hi : IsLineEvent i) :
    queue s <+: queue t := by
  rcases (exec_effect h).lineEvent_cases hi with ⟨-, hq⟩ | ⟨-, hq⟩ | ⟨d, af, hnf, rfl⟩
  · rw [hq]
  · rw [hq]
  · rcases acceptAndPush_cases d (s := { clearOutputs s with af := af }) hnf with ⟨u, -, hq, hu⟩ | ⟨-, hu⟩
    · rw [hu]
      exact ⟨[d], hq.symm⟩
    · rw [hu]
      exact List.prefix_rfl

theorem exec_lineEvent_en {i : Instr} {s t : State} (h : exec i s = .next t) (hi : IsLineEvent i) : t.en = s.en := by
  refine (exec_effect h).en_eq ?_ ?_ <;> rintro rfl <;> exact absurd hi (by decide)

theorem statusCurrent_of_blockInv {s : State} (h : BlockInv s) : StatusCurrent s := by
  obtain ⟨-, -, ⟨hcur, -⟩, -⟩ := (blockInv_iff s).1 h
  exact hcur

/-- Settles O46: under the invariant the status is what the detector says. -/
theorem lineEventsKeepAReportedStatus : Obligations.LineEventsKeepAReportedStatus := by
  intro i s t hinv hi h hst
  exact exec_lineEvent_status h hi (statusCurrent_of_blockInv hinv) (by rcases hst with hs | hs <;> simp [hs])

/-! ### A pending frame -/

/-- What every operation of a list keeps, the list keeps. -/
theorem execAll_induct {P : State → Prop} {is : List Instr}
    (hstep : ∀ i ∈ is, ∀ u v, P u → exec i u = .next v → P v) {s t : State} (h : execAll is s = .next t) (hs : P s) :
    P t := by
  induction is generalizing s with
  | nil =>
    cases h
    exact hs
  | cons i is ih =>
    obtain ⟨u, hu, hrest⟩ := andThen_next h
    exact ih (fun j hj => hstep j (.tail i hj)) hrest (hstep i (.head is) s u hs hu)

/-- `t` comes after `s`, in which a frame was complete, by line events: the frame is still pending, or a fault hides
it, and the bytes that were buffered still lead the queue. -/
structure FramePendsSince (s t : State) : Prop where
  inv : BlockInv t
  en : t.en = true
  status : t.status = .completeFrame ∨ t.status = .faulted
  queue_prefix : queue s <+: queue t

theorem FramePendsSince.exec_lineEvent {i : Instr} {s t u : State} (hp : FramePendsSince s t) (hi : IsLineEvent i)
    (h : exec i t = .next u) : FramePendsSince s u where
  inv := exec_blockInv h hp.inv
  en := (exec_lineEvent_en h hi).trans hp.en
  status := by
    have hkeep := exec_lineEvent_status h hi (statusCurrent_of_blockInv hp.inv)
    rcases hp.status with hs | hs
    · exact hs ▸ hkeep (by simp [hs])
    · exact .inr (by simpa [hs] using hkeep)
  queue_prefix := hp.queue_prefix.trans (exec_lineEvent_queue h hi)

/-- Bytes appended to the queue change none of those before them. -/
theorem frameByte_of_queue_prefix {s t : State} (h : queue s <+: queue t) {i : Nat} (hi : i < occupancy s) :
    frameByte t i = frameByte s i := by
  have his : i < (queue s).length := by rwa [queue_length]
  have hit := his.trans_le h.length_le
  calc frameByte t i = (queue t)[i] := (queue_getElem t hit).symm
    _ = (queue s)[i] := (h.getElem his).symm
    _ = frameByte s i := queue_getElem s his

theorem frameLength_of_queue_prefix {s t : State} (h : queue s <+: queue t) (h6 : 6 ≤ occupancy s) :
    frameLength t = frameLength s := by
  rw [frameLength, frameByte_of_queue_prefix h (by omega), frameByte_of_queue_prefix h (by omega), frameLength]

/-- Settles O47: line events keep the pending frame at the head of the queue, and `CURRENT_FRAME` reads it there. -/
theorem pendingFrameReadsTheSame : Obligations.PendingFrameReadsTheSame := by
  intro is s t hinv he hs his h hnf n
  have hpend : FramePendsSince s t :=
    execAll_induct (P := FramePendsSince s) (fun i hi _ _ hu => hu.exec_lineEvent (his i hi)) h
      ⟨hinv, he, .inl hs, List.prefix_rfl⟩
  have ht := hpend.status.resolve_right hnf
  have hcur := statusCurrent_of_blockInv hinv
  have hcurt := statusCurrent_of_blockInv hpend.inv
  obtain ⟨h6, hocc⟩ := frameLength_le_occupancy hcur hs
  have hlen := frameLength_of_queue_prefix hpend.queue_prefix h6
  obtain ⟨-, -, hrange, hread⟩ := currentFrameReadsTheFrame s n
  obtain ⟨-, -, hranget, hreadt⟩ := currentFrameReadsTheFrame t n
  rw [hlen] at hranget hreadt
  rcases le_or_gt (frameLength s) n.toNat with hn | hn
  · exact ⟨_, _, hrange he hs hcur hn, hranget hpend.en ht hcurt hn, rfl⟩
  · refine ⟨_, _, hread he hs hcur hn, hreadt hpend.en ht hcurt hn, ?_⟩
    rw [frameByte_of_queue_prefix hpend.queue_prefix (hn.trans_le hocc)]
    rfl

/-! ### Resynchronisation -/

/-- The queue depends on the read cursor modulo 2^(K+1) only (R14, R91, R94). -/
theorem queue_congr_rd {s t : State} (hp : t.params = s.params) (hm : t.ring = s.ring) (hw : t.wr = s.wr)
    (hr : t.rd % s.params.cursorMod = s.rd % s.params.cursorMod) : queue t = queue s := by
  have hocc : occupancy t = occupancy s := by simp only [occupancy, hp, hw, hr]
  have hidx (i : Nat) : ringIndex s.params (t.rd + i) = ringIndex s.params (s.rd + i) := by
    rw [ringIndex, ← mod_mod_cap, Nat.add_mod, hr, ← Nat.add_mod, mod_mod_cap, ringIndex]
  rw [queue, queue, hocc]
  exact List.map_congr_left fun i _ => by rw [ringByte, ringByte, readRing_congr hm, hp, hidx]

/-- `t` comes after `s` by `j` `SKIP_BYTE`s. -/
structure SkippedTo (s : State) (j : Nat) (t : State) : Prop where
  inv : BlockInv t
  en : t.en = true
  status : t.status ≠ .faulted
  params : t.params = s.params
  ring : t.ring = s.ring
  wr : t.wr = s.wr
  rd : t.rd = (s.rd + j) % s.params.cursorMod

/-- The bytes left are those behind the first `j` (R95, R97). -/
theorem SkippedTo.queue_eq {s t : State} {j : Nat} (h : SkippedTo s j t) : queue t = queue { s with rd := s.rd + j } :=
  queue_congr_rd h.params h.ring h.wr (by show t.rd % _ = (s.rd + j) % _; rw [h.rd, Nat.mod_mod])

theorem occupancy_rd_add {s : State} {j : Nat} (h : j ≤ occupancy s) :
    occupancy { s with rd := s.rd + j } = occupancy s - j := by
  rw [← occupancy_advanceRead (advanceRead_of_le h)]
  simp only [occupancy, Nat.mod_mod]

theorem SkippedTo.occupancy_eq {s t : State} {j : Nat} (h : SkippedTo s j t) (hj : j ≤ occupancy s) :
    occupancy t = occupancy s - j := by
  rw [← queue_length, h.queue_eq, queue_length, occupancy_rd_add hj]

theorem SkippedTo.exec_skipByte {s t : State} {j : Nat} (h : SkippedTo s j t) (hj : j < occupancy s) :
    ∃ u, exec .skipByte t = .next u ∧ SkippedTo s (j + 1) u := by
  have hocc := h.occupancy_eq hj.le
  have hu := exec_skipByte_retires h.en h.status (by omega)
  refine ⟨_, hu, exec_blockInv hu h.inv, ?_, ?_, ?_, ?_, ?_, ?_⟩
  · exact (updateStatus_en _).trans h.en
  · rw [updateStatus_status (s := afterRetiring 1 t) h.status]
    exact detect_ne_faulted _
  · exact (updateStatus_params _).trans h.params
  · exact (updateStatus_ring _).trans h.ring
  · exact (updateStatus_wr _).trans h.wr
  · rw [updateStatus_rd]
    show (t.rd + 1) % t.params.cursorMod = (s.rd + (j + 1)) % s.params.cursorMod
    rw [h.params, h.rd, Nat.mod_add_mod, Nat.add_assoc]

theorem skippedTo_zero {s : State} (hinv : BlockInv s) (he : s.en = true) (hs : s.status ≠ .faulted) :
    SkippedTo s 0 s := by
  obtain ⟨-, ⟨⟨-, hrd, -⟩, -⟩, -⟩ := (blockInv_iff s).1 hinv
  exact ⟨hinv, he, hs, rfl, rfl, rfl, (Nat.mod_eq_of_lt hrd).symm⟩

/-- Any number of buffered bytes can be skipped one by one. -/
theorem execAll_skipBytes {s : State} (h0 : SkippedTo s 0 s) {j : Nat} (hj : j ≤ occupancy s) :
    ∃ t, execAll (List.replicate j .skipByte) s = .next t ∧ SkippedTo s j t := by
  induction j with
  | zero => exact ⟨s, rfl, h0⟩
  | succ j ih =>
    obtain ⟨t, ht, hskip⟩ := ih (by omega)
    obtain ⟨u, hu, hnext⟩ := hskip.exec_skipByte hj
    refine ⟨u, ?_, hnext⟩
    rw [List.replicate_succ', execAll_append, ht]
    exact execAll_cons_next hu []

/-- After `j` skips the status is what the detector's three steps say of the `j`-th alignment (R107, R109). -/
theorem SkippedTo.detects {s t : State} {j : Nat} (h : SkippedTo s j t) :
    Detects { s with rd := s.rd + j } t.status := by
  rw [statusCurrent_of_blockInv h.inv h.status, detect_congr h.queue_eq]
  exact detectorFollowsItsThreeSteps _

/-- Settles O56: each of the skips succeeds, and the detector says of every alignment what the premises do. -/
theorem skippingResynchronises : Obligations.SkippingResynchronises := by
  intro s k hinv he hs hk hbad h6 hsum hlen
  simp only [buffered_eq_occupancy] at hk hbad h6 hlen
  have h0 := skippedTo_zero hinv he (by simp [hs])
  have hocc {j : Nat} (hj : j ≤ k) : buffered { s with rd := s.rd + j } = occupancy s - j := by
    rw [buffered_eq_occupancy, occupancy_rd_add (hj.trans hk)]
  constructor
  · intro j hj
    obtain ⟨t, ht, hskip⟩ := execAll_skipBytes h0 (hj.le.trans hk)
    obtain ⟨hj6, hjsum⟩ := hbad j hj
    obtain ⟨-, hmismatch, -⟩ := hskip.detects
    exact ⟨t, ht, hmismatch (by rwa [hocc hj.le]) hjsum⟩
  · obtain ⟨t, ht, hskip⟩ := execAll_skipBytes h0 hk
    obtain ⟨-, -, hcomplete, -⟩ := hskip.detects
    have hst := hcomplete (by rwa [hocc le_rfl]) hsum (by rwa [hocc le_rfl])
    obtain ⟨-, -, ⟨-, -, harmed⟩, -⟩ := (blockInv_iff t).1 hskip.inv
    exact ⟨t, ht, hst, harmed (.inl hst), hskip.rd, hskip.wr, hskip.ring⟩

/-! ### A frame coming in -/

/-- A header this node writes, with bytes behind it: complete from the frame's length on (R85, R101). -/
theorem detectBytes_headerBytes (a b : Byte) {n : Nat} (h : n < 65536) (rest : List Byte) :
    detectBytes (headerBytes a b n ++ rest) = if n ≤ rest.length then .completeFrame else .idle := by
  simp only [detectBytes, validateHeader_headerBytes a b h, List.length_append, headerBytes_length,
    Nat.add_le_add_iff_left]

/-- Short of its last byte an encoded frame reads as `Idle`. -/
theorem detectBytes_of_frame_prefix {a b : Byte} {payload q : List Byte} (h : payload.length < 65536)
    (hq : q <+: headerBytes a b payload.length ++ payload) (hlt : q.length < 6 + payload.length) :
    detectBytes q = .idle := by
  by_cases h6 : q.length < 6
  · exact detectBytes_short h6
  · have hheader := List.prefix_append (headerBytes a b payload.length) payload
    obtain ⟨rest, rfl⟩ := List.prefix_of_prefix_length_le hheader hq (not_lt.1 h6)
    rw [List.length_append, headerBytes_length] at hlt
    rw [detectBytes_headerBytes a b h, if_neg (by omega)]

/-- A byte that finds room is pushed, and the detector runs on the longer queue (R92, R121). -/
theorem acceptAndPush_of_room (b : Byte) {s : State} (hs : s.status ≠ .faulted) (h : occupancy s < s.params.cap) :
    ∃ m, acceptAndPush b s = { s with
        ring := m, wr := (s.wr + 1) % s.params.cursorMod, status := detectBytes (queue s ++ [b])
        af := s.af || decide (detectBytes (queue s ++ [b]) = .completeFrame) } ∧
      queue (acceptAndPush b s) = queue s ++ [b] ∧
      ∀ i, i ≠ ringIndex s.params s.wr → readRing (acceptAndPush b s) i = readRing s i := by
  rcases acceptAndPush_cases b hs with ⟨t, ht, hq, he⟩ | ⟨hfull, -⟩
  · have hread := fun i => readRing_push_other ht (i := i)
    obtain ⟨-, rfl⟩ := push_some ht
    rw [he, detect_eq, hq]
    exact ⟨_, rfl, hq, hread⟩
  · omega

/-- `s` after the bytes `q` were received into its empty ring, whose memory is now `m`. -/
def received (s : State) (m : Memory) (q : List Byte) : State :=
  { silent s with
    ring := m, wr := (s.wr + q.length) % s.params.cursorMod, status := detectBytes q
    af := decide (detectBytes q = .completeFrame) }

/-- One byte more moves the write cursor on by one (R92). -/
theorem received_snoc (s : State) (m : Memory) (q : List Byte) (b : Byte) : received s m (q ++ [b]) = { silent s with
    ring := m, wr := ((s.wr + q.length) % s.params.cursorMod + 1) % s.params.cursorMod
    status := detectBytes (q ++ [b]), af := decide (detectBytes (q ++ [b]) = .completeFrame) } := by
  rw [received, List.length_append, List.length_singleton, Nat.mod_add_mod, Nat.add_assoc]

/-- The ring memory `m` holds the bytes `q` at the read cursor, and off the indices they were written to it reads as
before. -/
structure HoldsReceived (s : State) (m : Memory) (q : List Byte) : Prop where
  queue_eq : queue (received s m q) = q
  read_other : ∀ i, (∀ j < q.length, i ≠ ringIndex s.params (s.wr + j)) →
    readRing { s with ring := m } i = readRing s i

theorem HoldsReceived.occupancy_eq {s : State} {m : Memory} {q : List Byte} (h : HoldsReceived s m q) :
    occupancy (received s m q) = q.length := by
  rw [← queue_length, h.queue_eq]

/-- The bytes at the read cursor, in the statements' terms. -/
theorem HoldsReceived.frameBytes {s : State} {m : Memory} {q : List Byte} (h : HoldsReceived s m q) :
    (List.range q.length).map (frameByte { s with ring := m }) = q := by
  calc (List.range q.length).map (frameByte { s with ring := m })
      = queue (received s m q) := by rw [queue, h.occupancy_eq]; rfl
    _ = q := h.queue_eq

theorem exec_rxAddrMatch_accepts {s : State} (he : s.en = true) (hs : s.status ≠ .faulted) (d : Byte) :
    exec (.rxAddrMatch d) s = .next (acceptAndPush d (disableAddressFilter (clearOutputs s))) := by
  rw [exec, execRxAddrMatch, lineEvent_on he, unlessFaulted, if_neg (by simpa using hs), addressMatch]

/-- The address character of a frame opens the reception (R119). -/
theorem exec_rxAddrMatch_receives {s : State} (he : s.en = true) (hs : s.status ≠ .faulted) (h0 : occupancy s = 0)
    (d : Byte) : ∃ m, exec (.rxAddrMatch d) s = .next (received s m [d]) ∧ HoldsReceived s m [d] := by
  have hempty : queue (disableAddressFilter (clearOutputs s)) = [] :=
    List.eq_nil_of_length_eq_zero ((queue_length s).trans h0)
  obtain ⟨m, hm, hq, hread⟩ := acceptAndPush_of_room d (s := disableAddressFilter (clearOutputs s)) hs
    (h0.trans_lt (cap_pos _))
  rw [hempty, List.nil_append] at hm hq
  rw [hm] at hq hread
  refine ⟨m, ?_, hq, fun i hi => hread i (hi 0 Nat.zero_lt_one)⟩
  rw [exec_rxAddrMatch_accepts he hs, hm]
  rfl

/-- While the status is still `Idle` a data character adds itself to what was received (R122). -/
theorem exec_rxData_receives {s : State} {m : Memory} {q : List Byte} (he : s.en = true)
    (hidle : detectBytes q = .idle) (hroom : q.length < s.params.cap) (hm : HoldsReceived s m q) (b : Byte) :
    ∃ m', exec (.rxData b) (received s m q) = .next (received s m' (q ++ [b])) ∧ HoldsReceived s m' (q ++ [b]) := by
  have hstatus : (received s m q).status ≠ .faulted := detectBytes_ne_faulted q
  have haf : (received s m q).af = false := by simp [received, hidle]
  obtain ⟨m', hm', hq, hread⟩ := acceptAndPush_of_room b (s := clearOutputs (received s m q)) hstatus
    (hm.occupancy_eq.trans_lt hroom)
  rw [queue_clearOutputs, hm.queue_eq] at hm' hq
  have heq : acceptAndPush b (clearOutputs (received s m q)) = received s m' (q ++ [b]) := by
    rw [hm', clearOutputs_af, haf, Bool.false_or, received_snoc]
    rfl
  rw [heq] at hq hread
  refine ⟨m', ?_, hq, fun i hi => ?_⟩
  · rw [exec_rxData_collecting (s := received s m q) he hstatus haf, heq]
  · rw [List.length_append, List.length_singleton] at hi
    have hlast : i ≠ ringIndex s.params ((s.wr + q.length) % s.params.cursorMod) := by
      rw [ringIndex, mod_mod_cap]
      exact hi q.length q.length.lt_succ_self
    exact (hread i hlast).trans (hm.read_other i fun j hj => hi j (by omega))

/-- The characters of a frame for this node are all received while no proper part of it makes a status other than
`Idle`, at which the filter could be armed again (R102, R119, R122). -/
theorem execAll_frameCharacters_receives {s : State} (he : s.en = true) (hs : s.status ≠ .faulted)
    (h0 : occupancy s = 0) {d : Byte} (hd : accept s.params d = true) {bytes : List Byte}
    (hroom : (d :: bytes).length ≤ s.params.cap)
    (hidle : ∀ q, q <+: d :: bytes → q.length < (d :: bytes).length → detectBytes q = .idle) :
    ∃ m, execAll (frameCharacters s.params (d :: bytes)) s = .next (received s m (d :: bytes)) ∧
      HoldsReceived s m (d :: bytes) := by
  induction bytes using List.reverseRecOn with
  | nil =>
    obtain ⟨m, hm, hheld⟩ := exec_rxAddrMatch_receives he hs h0 d
    refine ⟨m, ?_, hheld⟩
    rw [frameCharacters, if_pos hd]
    exact execAll_cons_next hm []
  | append_singleton bytes b ih =>
    have hpre : d :: bytes <+: d :: (bytes ++ [b]) := ⟨[b], rfl⟩
    have hlen : (d :: bytes).length < (d :: (bytes ++ [b])).length := by simp
    obtain ⟨m, hm, hheld⟩ := ih (hlen.le.trans hroom) fun q hq hlt => hidle q (hq.trans hpre) (hlt.trans hlen)
    obtain ⟨m', hm', hheld'⟩ := exec_rxData_receives he (hidle _ hpre hlen) (hlen.trans_le hroom) hheld b
    have hchars : frameCharacters s.params (d :: (bytes ++ [b])) =
        frameCharacters s.params (d :: bytes) ++ [.rxData b] := by simp [frameCharacters]
    refine ⟨m', ?_, hheld'⟩
    rw [hchars, execAll_append, hm]
    exact execAll_cons_next hm' []

/-- Settles O54: no proper part of the frame completes it, so every character finds the filter disarmed; the whole
frame is complete. -/
theorem encodedFrameIsReceived : Obligations.EncodedFrameIsReceived := by
  intro s d src payload f hinv he hs h0 hd hf
  obtain ⟨h16, hmax, rfl⟩ := encodedFrame_eq_some_iff.1 hf
  obtain ⟨⟨-, -, hcap, -⟩, -⟩ := (blockInv_iff s).1 hinv
  rw [buffered_eq_occupancy] at h0
  have hlen : (headerBytes d src payload.length ++ payload).length = 6 + payload.length := List.length_append
  have hcomplete : detectBytes (headerBytes d src payload.length ++ payload) = .completeFrame := by
    rw [detectBytes_headerBytes d src h16, if_pos le_rfl]
  obtain ⟨bytes, hframe⟩ : ∃ bytes, headerBytes d src payload.length ++ payload = d :: bytes := ⟨_, rfl⟩
  have hidle (q : List Byte) (hq : q <+: d :: bytes) (hlt : q.length < (d :: bytes).length) : detectBytes q = .idle :=
    detectBytes_of_frame_prefix h16 (hframe ▸ hq) (hlt.trans_eq (hframe ▸ hlen))
  rw [hframe] at hlen hcomplete ⊢
  obtain ⟨m, hm, hheld⟩ := execAll_frameCharacters_receives he (by simp [hs]) h0 hd (hlen.trans_le (by omega)) hidle
  refine ⟨m, ?_, hheld.frameBytes, hheld.read_other⟩
  rw [hm, received, hcomplete]
  rfl

end Sys2Proof.Machine
end

section
/-! The statements of 43_address_filter.md: what a received character does in each case of R116, and that a frame for
another node leaves no trace. -/

namespace Sys2Proof.Machine

open Sys2Proof.Claims

/-! ### The address comparison -/

/-- Settles O31, by the definition: the list of group addresses is searched for `a`. -/
theorem acceptComparesWithOwnAndGroup : Obligations.AcceptComparesWithOwnAndGroup := accept_iff

/-! ### `accept_and_push` in the statements' terms -/

/-- One byte written to `RING` reads back at its index, and every other byte reads as before (R43). -/
theorem readRing_write (s : State) (j : Nat) (d : Byte) (i : Nat) :
    readRing { s with ring := Memory.write s.ring j d } i = if i = j then d else readRing s i := by
  rw [readRing, Memory.read_write]
  split_ifs with h
  · rfl
  · rfl

/-- `accept_and_push` is the statements' one (R121): with room the byte is stored and the detector runs, and a full ring
enters the overflow fault. -/
theorem acceptsAndPushes_acceptAndPush (d : Byte) {s : State} (hs : s.status ≠ .faulted) :
    AcceptsAndPushes d s (acceptAndPush d s) := by
  rw [AcceptsAndPushes, buffered_eq_occupancy]
  refine ⟨fun hroom => ?_, fun hfull => acceptAndPush_of_full d hfull.ge⟩
  have hpush : push d s = some { s with
      ring := Memory.write s.ring (ringIndex s.params s.wr) d, wr := (s.wr + 1) % s.params.cursorMod } := if_pos hroom
  rw [acceptAndPush, hpush]
  exact ⟨_, reevaluated_updateStatus hs, readRing_write s (ringIndex s.params s.wr) d⟩

/-! ### Characters that are ignored or dropped -/

/-- While `en = 0` every received character is ignored, whatever its flags, marker and data (R116, R128). -/
theorem exec_rxLine_disabled {i : Instr} (hi : i.agent = .rxLine) {s : State} (he : s.en = false) :
    exec i s = .next (silent s) := by
  have hoff (body : State → State) : Host.Outcome.next (lineEvent body s) = (.next (silent s) : Answer) :=
    congrArg _ (lineEvent_off he body)
  cases i with
  | rxErrOverrun | rxErrFraming | rxErrParity | rxAddrMatch | rxAddrMismatch | rxData => exact hoff _
  | _ => cases hi

/-- An error-free character is ignored while `en = 0` and dropped in `Faulted`, with no trace (R116, R128). -/
theorem lineEvent_unlessFaulted_of_dropped {s : State} (h : s.en = false ∨ s.status = .faulted)
    (body : State → State) : lineEvent (unlessFaulted body) s = silent s := by
  cases he : s.en with
  | false => exact lineEvent_off he _
  | true =>
    have hs : s.status = .faulted := h.resolve_left (by simp [he])
    rw [lineEvent_on he]
    exact if_pos hs

/-- In every other state its own meaning is carried out (R116). -/
theorem lineEvent_unlessFaulted_of_received {s : State} (he : s.en = true) (hs : s.status ≠ .faulted)
    (body : State → State) : lineEvent (unlessFaulted body) s = body (silent s) := by
  rw [lineEvent_on he]
  exact if_neg hs

/-! ### Flagged characters -/

/-- `receive_fault` is the statements' one: its cause bits are `dor + 2 fe + 4 pe` (R18, R118). -/
theorem receiveFault_eq (dor fe pe : Bool) (s : State) : receiveFault dor fe pe s = receiveFaulted dor fe pe s := by
  have hcauses : receiveCauses dor fe pe = BitVec.ofNat 4 (dor.toNat + 2 * fe.toNat + 4 * pe.toNat) := by
    revert dor fe pe
    decide
  rw [receiveFault, hcauses]
  rfl

/-- A flagged character is received in every status and filter mode (R118). -/
theorem lineEvent_receiveFault {s : State} (he : s.en = true) (dor fe pe : Bool) :
    lineEvent (receiveFault dor fe pe) s = receiveFaulted dor fe pe (silent s) :=
  (lineEvent_on he _).trans (receiveFault_eq dor fe pe _)

/-- Settles O26: the three flagged rows differ only in the cause bits they record. -/
theorem flaggedCharactersFault : Obligations.FlaggedCharactersFault := by
  intro s fe pe m data
  refine ⟨fun he => ⟨exec_rxLine_disabled rfl he, exec_rxLine_disabled rfl he, exec_rxLine_disabled rfl he⟩,
    fun he => ⟨?_, ?_, ?_⟩⟩
  · exact congrArg _ (lineEvent_receiveFault he true fe pe)
  · exact congrArg _ (lineEvent_receiveFault he false true pe)
  · exact congrArg _ (lineEvent_receiveFault he false false true)

/-! ### Error-free characters -/

/-- Settles O27: past the two checks the filter is disarmed, then the character is accepted and pushed. -/
theorem matchingAddressIsKept : Obligations.MatchingAddressIsKept := fun s data =>
  ⟨fun h => congrArg _ (lineEvent_unlessFaulted_of_dropped h (addressMatch data)),
    fun he hs => ⟨_, exec_rxAddrMatch_accepts he hs data,
      acceptsAndPushes_acceptAndPush data (s := { silent s with af := false }) hs⟩⟩

/-- Settles O28: past the two checks the filter is armed, and that is all. -/
theorem foreignAddressArmsTheFilter : Obligations.ForeignAddressArmsTheFilter := fun _ _ =>
  ⟨fun h => congrArg _ (lineEvent_unlessFaulted_of_dropped h addressMismatch),
    fun he hs => congrArg _ (lineEvent_unlessFaulted_of_received he hs addressMismatch)⟩

/-- A data character is dropped while the filter is armed (R122). -/
theorem exec_rxData_filtered {s : State} (ha : s.af = true) (data : Byte) :
    exec (.rxData data) s = .next (silent s) := by
  by_cases h : s.en = false ∨ s.status = .faulted
  · exact congrArg _ (lineEvent_unlessFaulted_of_dropped h (dataChar data))
  · obtain ⟨he, hs⟩ := not_or.1 h
    rw [exec, execRxData, lineEvent_unlessFaulted_of_received (by simpa using he) hs, dataChar]
    exact congrArg _ (if_pos ha)

/-- Settles O29: the filter is the last check; past it the character is accepted and pushed. -/
theorem dataCharacterIsFilteredOrPushed : Obligations.DataCharacterIsFilteredOrPushed := by
  refine fun s data => ⟨fun h => ?_, fun he hs ha =>
    ⟨_, exec_rxData_collecting he hs ha data, acceptsAndPushes_acceptAndPush data (s := silent s) hs⟩⟩
  rcases or_assoc.2 h with hdropped | ha
  · exact congrArg _ (lineEvent_unlessFaulted_of_dropped hdropped (dataChar data))
  · exact exec_rxData_filtered ha data

/-! ### The dispatch of a received word -/

/-- The port selects the agent: a received word starts a step of the receive line, whatever it holds (R67, R170). -/
theorem agent_decode_rx (p : Params) (w : BitVec 12) : (decode p (.rx w)).agent = .rxLine := by
  rw [decode, decodeRx]
  split_ifs <;> rfl

/-- A word with any flag set is a receive fault, whichever of the three rows it decodes to (R67, R118). -/
theorem exec_decode_flagged {dor fe pe : Bool} (hf : (dor || fe || pe) = true) (p : Params) (m : Bool) (data : Byte)
    {s : State} (he : s.en = true) :
    exec (decode p (rxStimulus dor fe pe m data)) s = .next (receiveFaulted dor fe pe (silent s)) := by
  obtain ⟨-, hrx, -⟩ := portWordsDecodeByTheirFields
  obtain ⟨hoverrun, hframing, hparity, -⟩ := hrx p fe pe m data
  obtain ⟨-, hfaults⟩ := flaggedCharactersFault s fe pe m data
  obtain ⟨hexecOverrun, hexecFraming, hexecParity⟩ := hfaults he
  cases dor with
  | true => rwa [hoverrun]
  | false =>
    cases fe with
    | true => rwa [hframing]
    | false =>
      obtain rfl : pe = true := hf
      rwa [hparity]

/-- A word without flags decodes by its marker, a marked one by the address comparison (R67, R116, R123). -/
theorem decode_unflagged {dor fe pe : Bool} (hf : ¬ (dor || fe || pe) = true) (p : Params) (m : Bool) (data : Byte) :
    decode p (rxStimulus dor fe pe m data) =
      if m then (if accept p data then .rxAddrMatch data else .rxAddrMismatch data) else .rxData data := by
  obtain ⟨rfl, rfl, rfl⟩ : dor = false ∧ fe = false ∧ pe = false := by simpa [and_assoc] using hf
  obtain ⟨-, hrx, -⟩ := portWordsDecodeByTheirFields
  obtain ⟨-, -, -, hmatch, hmismatch, hdata⟩ := hrx p false false m data
  rw [← accept_iff] at hmatch hmismatch
  split_ifs with hm ha
  · rw [hm, hmatch ha]
  · rw [hm, hmismatch ha]
  · rw [Bool.eq_false_iff.2 hm, hdata]

/-- Settles O30: each clause selects the row the word decodes to, and the statement about that row says the rest. -/
theorem receivedCharacterIsDispatched : Obligations.ReceivedCharacterIsDispatched := by
  intro s dor fe pe m data rest hinputs
  rw [step_of_inputs_cons hinputs]
  simp only [← accept_iff]
  obtain ⟨hmatchDropped, hmatchKept⟩ := matchingAddressIsKept { s with inputs := rest } data
  obtain ⟨hforeignDropped, hforeignArms⟩ := foreignAddressArmsTheFilter { s with inputs := rest } data
  obtain ⟨hdataDropped, hdataPushed⟩ := dataCharacterIsFilteredOrPushed { s with inputs := rest } data
  refine ⟨fun he => ?_, fun he hf => ?_, fun _ hf hs => ?_, fun he hf hs hm ha => ?_, fun he hf hs hm ha => ?_,
    fun he hf hs hm haf => ?_, fun _ hf _ hm haf => ?_⟩
  · exact exec_rxLine_disabled (agent_decode_rx _ _) he
  · exact exec_decode_flagged hf s.params m data he
  · rw [decode_unflagged hf]
    split_ifs with hm ha
    · exact hmatchDropped (.inr hs)
    · exact hforeignDropped (.inr hs)
    · exact hdataDropped (.inr (.inl hs))
  · rw [decode_unflagged hf, if_pos hm, if_pos ha]
    exact hmatchKept he hs
  · rw [decode_unflagged hf, if_pos hm, if_neg ha]
    exact hforeignArms he hs
  · rw [decode_unflagged hf, hm]
    exact hdataPushed he hs haf
  · rw [decode_unflagged hf, hm]
    exact hdataDropped (.inr (.inr haf))

/-! ### A frame for another node -/

/-- Behind an armed filter the data characters of a frame leave no trace at all, where no output was driven before
(R122). -/
theorem execAll_rxData_filtered {s : State} (ha : s.af = true) (hout : silent s = s) (bytes : List Byte) :
    execAll (bytes.map .rxData) s = .next s := by
  induction bytes with
  | nil => rfl
  | cons b bytes ih =>
    have hb : exec (.rxData b) s = .next s := (exec_rxData_filtered ha b).trans (congrArg _ hout)
    exact (execAll_cons_next hb _).trans ih

/-- Settles O55: the address character arms the filter (O28), and the filter drops the rest. -/
theorem foreignFrameLeavesNoTrace : Obligations.ForeignFrameLeavesNoTrace := by
  intro s d rest he hs hd
  obtain ⟨-, harms⟩ := foreignAddressArmsTheFilter s d
  rw [frameCharacters, if_neg (by simp [hd]), execAll_cons_next (harms he hs)]
  exact execAll_rxData_filtered rfl rfl rest

end Sys2Proof.Machine
end

section
/-! The statements of 44_transmit.md: what the commands that write or send `TXBUF` and the transmit event do, that
nothing else touches a frame in flight, and that the two lines may be served in either order. Beside them what reset
adds to the line log. -/

namespace Sys2Proof.Machine

open Sys2Proof.Claims

/-! ### The commands on `TXBUF` -/

/-- The emitted-character word as the statements write it (R65). -/
theorem txWord_eq_character (m : Bool) (b : Byte) : txWord m b = character m b := by
  rw [character, ← txWord_toNat, BitVec.ofNat_toNat, BitVec.setWidth_eq]

/-- The refusals of every command on `TXBUF`, in the order of their checks: disabled, busy, out of its own range (R131,
R134, R137). -/
theorem transmitCommand_refuses {i : Instr} {s : State} {c : Prop} [Decidable c] {e : RspCode} {body : Answer}
    (hi : exec i s = ifInit s (ifNotBusy s (if c then reject e s else body))) :
    (s.en = false → exec i s = .next (answered 1 0 s)) ∧
    (s.en = true → s.txBusy = true → exec i s = .next (answered 3 0 s)) ∧
    (s.en = true → s.txBusy = false → c → exec i s = .next (answered e.code.toNat 0 s)) := by
  rw [hi]
  refine ⟨fun he => ?_, fun he hb => ?_, fun he hb hc => ?_⟩
  · rw [ifInit_off he]
    exact reject_eq_answered .errNotInit s
  · rw [ifInit_on he, ifNotBusy_on hb]
    exact reject_eq_answered .errBusy s
  · rw [ifInit_on he, ifNotBusy_off hb, if_pos hc]
    exact reject_eq_answered e s

/-- One byte written to `TXBUF` reads back at its index, and every other byte reads as before (R44). -/
theorem readTxbuf_write (s : State) (j : Nat) (a : Byte) (i : Nat) :
    readTxbuf { s with txbuf := Memory.write s.txbuf j a } i = if i = j then a else readTxbuf s i := by
  rw [readTxbuf, Memory.read_write]
  split_ifs with h
  · rfl
  · rfl

/-- Settles O32: the three checks of R131 in their order, then one byte is written. -/
theorem txbufWriteStoresOneByte : Obligations.TxbufWriteStoresOneByte := by
  intro s a n
  obtain ⟨hoff, hbusy, hrange⟩ := transmitCommand_refuses (i := .txbufWrite a n) (s := s) rfl
  refine ⟨hoff, hbusy, hrange, fun he hb hfit => ⟨Memory.write s.txbuf n.toNat a, ?_, readTxbuf_write s n.toNat a⟩⟩
  rw [exec_txbufWrite_stores he hb hfit, answerOk_eq, rspWord_eq_ofNat]
  rfl

/-- A command that hands over to `start` answers `OK`, with `de` up and the marked first byte on the line (R136). -/
theorem start_answerOk_eq (s : State) (n : Nat) :
    andThen (start n s) (answerOk 0#17) = .next { s with
      rsp := some (BitVec.ofNat 21 (0 * 2 ^ 17 + 0)), txLen := n, txPos := 1, txBusy := true, de := true
      tx := some (character true (readTxbuf s 0))
      lineLog := s.lineLog ++ (if s.de then [] else [.de true]) ++ [.ch (readTxbuf s 0) true] } := by
  rw [start_eq, txWord_eq_character, andThen, answerOk_eq, rspWord_eq_ofNat]
  rfl

/-- Settles O34: the three checks of R134 in their order, then the header's write, whose first byte `start` emits. -/
theorem sendStartsAFrame : Obligations.SendStartsAFrame := by
  intro s a b n
  obtain ⟨hoff, hbusy, hover⟩ := transmitCommand_refuses (i := .send a b n) (s := s) rfl
  refine ⟨hoff, hbusy, hover, fun he hb hfit => ⟨Memory.writeList s.txbuf 0 (headerBytes a b n.toNat), ?_, fun i => ?_⟩⟩
  · have hfirst : readTxbuf (writeHeader a b n.toNat (clearOutputs s)) 0 = a := readTxbuf_writeHeader a b n.toNat _ 0
    rw [exec_send_starts he hb hfit, start_answerOk_eq, hfirst]
    rfl
  · rw [header_eq_headerBytes]
    exact readTxbuf_writeHeader a b n.toNat s i

theorem exec_sendRaw_starts {s : State} (he : s.en = true) (hb : s.txBusy = false) {n : BitVec 16}
    (h1 : 1 ≤ n.toNat) (hc : n.toNat ≤ s.params.txcap) :
    exec (.sendRaw n) s = andThen (start n.toNat (clearOutputs s)) (answerOk 0#17) := by
  rw [exec, execSendRaw, ifInit_on he, ifNotBusy_off hb, if_neg (by omega)]

/-- Settles O35: the three checks of R137 in their order, then `start` on `TXBUF` as it is. -/
theorem sendRawStartsTheBuffer : Obligations.SendRawStartsTheBuffer := by
  intro s n
  obtain ⟨hoff, hbusy, hrange⟩ := transmitCommand_refuses (i := .sendRaw n) (s := s) rfl
  refine ⟨hoff, hbusy, hrange, fun he hb h1 hcap => ?_⟩
  rw [exec_sendRaw_starts he hb h1 hcap, start_answerOk_eq]
  rfl

/-! ### The transmit event -/

/-- Settles O36: ignored, or the next byte, or the end of the frame. -/
theorem txEventEmitsOrFinishes : Obligations.TxEventEmitsOrFinishes := by
  intro s
  refine ⟨fun hidle => ?_, fun he hb hleft hcap => ?_, fun he hb hdone => exec_txEvent_finishes he hb hdone⟩
  · rw [exec, execTxEvent, if_neg (by rcases hidle with h | h <;> simp [h])]
    rfl
  · rw [exec_txEvent_sending he hb hleft, txNext_eq (s := clearOutputs s) hcap, txWord_eq_character]
    rfl

/-- Settles O37: `SEND_RAW` starts, from the idle line, the transmission that the events carry to its end. -/
theorem sendRawTransmitsTheBuffer : Obligations.SendRawTransmitsTheBuffer := by
  intro s n he hb hd h1 hcap
  rw [execAll_started (exec_sendRaw_starts he hb h1 hcap) he hd h1 hcap]
  simp only [clearOutputs, silent, hd, hb]
  rfl

/-! ### A frame in flight -/

/-- While a send is in flight `TXBUF` and its commands are locked (R135), so that only a transmit event, `BUS_INIT` or
reset goes on to touch the transmit side. -/
theorem Effect.transmit_kept {i : Instr} {s t : State} (e : Effect s i t) (hb : s.txBusy = true) (htx : i ≠ .txEvent)
    (hinit : i ≠ .busInit) (hreset : i ≠ .reset) :
    t.txbuf = s.txbuf ∧ t.txPos = s.txPos ∧ t.txLen = s.txLen ∧ t.txBusy = s.txBusy ∧ t.de = s.de ∧
      t.lineLog = s.lineLog ∧ t.tx = none := by
  cases e with
  | busInit => exact absurd rfl hinit
  | reset => exact absurd rfl hreset
  | emitted | finished => exact absurd rfl htx
  | stored _ _ _ _ _ hidle | started _ _ _ _ _ _ _ hidle => simp [hb] at hidle
  | retired n hi he hs hu =>
    obtain ⟨-, rfl⟩ := advanceRead_some hu
    simp
  | addressed d he hs => simp
  | collected d he hs ha => simp
  | _ => exact ⟨rfl, rfl, rfl, rfl, rfl, rfl, rfl⟩

/-- Settles O39: of all effects only those of the three excluded operations touch the transmit side of a busy block. -/
theorem frameInFlightIsNotTouched : Obligations.FrameInFlightIsNotTouched := by
  intro i s t hb h htx hinit hreset
  obtain ⟨hmem, hpos, hlen, hbusy, hde, hlog, hout⟩ := (exec_effect h).transmit_kept hb htx hinit hreset
  exact ⟨fun j => by rw [readTxbuf, readTxbuf, hmem], hmem, hpos, hlen, hbusy.trans hb, hde, hlog, hout⟩

/-! ### The two lines

The receive line works on the receive side of the state and the transmit line on the rest; both read the parameters and
`en`, and neither writes them (R130). So each event acts on a state put together from two halves as it acts on its own
half, and the two orders of a pair of events put the same halves together. -/

/-- The receive side of `r`, the parameters and `en` with it, and all the rest of `x`. -/
def joined (r x : State) : State :=
  { x with
    params := r.params, en := r.en, ring := r.ring, wr := r.wr, rd := r.rd, status := r.status
    faultCause := r.faultCause, af := r.af }

@[simp] theorem joined_params (r x : State) : (joined r x).params = r.params := rfl
@[simp] theorem joined_en (r x : State) : (joined r x).en = r.en := rfl
@[simp] theorem joined_status (r x : State) : (joined r x).status = r.status := rfl
@[simp] theorem joined_af (r x : State) : (joined r x).af = r.af := rfl
@[simp] theorem joined_txBusy (r x : State) : (joined r x).txBusy = x.txBusy := rfl
@[simp] theorem joined_txPos (r x : State) : (joined r x).txPos = x.txPos := rfl
@[simp] theorem joined_txLen (r x : State) : (joined r x).txLen = x.txLen := rfl
@[simp] theorem occupancy_joined (r x : State) : occupancy (joined r x) = occupancy r := rfl
@[simp] theorem detect_joined (r x : State) : detect (joined r x) = detect r := rfl

/-- `f` works on the receive side alone. -/
def ReceiveOnly (f : State → State) : Prop := ∀ r x, f (joined r x) = joined (f r) x

theorem push_joined (d : Byte) (r x : State) : push d (joined r x) = (push d r).map (joined · x) := by
  unfold push
  rw [occupancy_joined, joined_params]
  split_ifs <;> rfl

theorem receiveOnly_updateStatus : ReceiveOnly updateStatus := by
  intro r x
  unfold updateStatus
  rw [joined_status, detect_joined]
  split_ifs <;> rfl

theorem receiveOnly_acceptAndPush (d : Byte) : ReceiveOnly (acceptAndPush d) := by
  intro r x
  rw [acceptAndPush, acceptAndPush, push_joined]
  cases push d r with
  | none => rfl
  | some t => exact receiveOnly_updateStatus t x

theorem receiveOnly_dataChar (d : Byte) : ReceiveOnly (dataChar d) := by
  intro r x
  unfold dataChar
  rw [joined_af, receiveOnly_acceptAndPush]
  split_ifs <;> rfl

theorem receiveOnly_unlessFaulted {f : State → State} (hf : ReceiveOnly f) : ReceiveOnly (unlessFaulted f) := by
  intro r x
  unfold unlessFaulted
  rw [joined_status, hf]
  split_ifs <;> rfl

/-- A received character acts on the receive side and drives no output. -/
theorem lineEvent_joined {f : State → State} (hf : ReceiveOnly f) (r x : State) :
    lineEvent f (joined r x) = joined (lineEvent f r) (silent x) := by
  unfold lineEvent
  rw [joined_en]
  split_ifs
  · exact hf (clearOutputs r) (silent x)
  · rfl

theorem exec_rxLine_joined {i : Instr} (hi : i.agent = .rxLine) {r t : State} (h : exec i r = .next t) (x : State) :
    exec i (joined r x) = .next (joined t (silent x)) := by
  have key {f : State → State} (hf : ReceiveOnly f) (hr : (.next (lineEvent f r) : Answer) = .next t) :
      (.next (lineEvent f (joined r x)) : Answer) = .next (joined t (silent x)) := by
    cases hr
    exact congrArg _ (lineEvent_joined hf r x)
  cases i with
  | rxErrOverrun | rxErrFraming | rxErrParity => exact key (fun _ _ => rfl) h
  | rxAddrMatch d =>
    exact key (receiveOnly_unlessFaulted fun r x => receiveOnly_acceptAndPush d (disableAddressFilter r) x) h
  | rxAddrMismatch => exact key (receiveOnly_unlessFaulted fun _ _ => rfl) h
  | rxData d => exact key (receiveOnly_unlessFaulted (receiveOnly_dataChar d)) h
  | _ => cases hi

/-- A transmit event does the same beside any receive side and leaves that alone, the parameters and `en` being equal
(R138). -/
theorem exec_txEvent_joined {r x u : State} (hp : r.params = x.params) (he : r.en = x.en)
    (h : exec .txEvent x = .next u) : exec .txEvent (joined r x) = .next (joined r u) := by
  rw [exec, execTxEvent] at h ⊢
  rw [joined_en, he, joined_txBusy, joined_txPos, joined_txLen]
  split_ifs at h ⊢
  · rcases Nat.lt_or_ge x.txPos x.params.txcap with hc | hc
    · rw [txNext_eq (s := clearOutputs x) hc] at h
      cases h
      exact txNext_eq (s := clearOutputs (joined r x)) (hp ▸ hc)
    · rw [txNext_fault (s := clearOutputs x) hc] at h
      cases h
  · rw [txFinish_eq] at h ⊢
    cases h
    rfl
  · cases h
    rfl

theorem execAll_pair_next {i j : Instr} {s t : State} (h : execAll [i, j] s = .next t) :
    ∃ u, exec i s = .next u ∧ exec j u = .next t := by
  obtain ⟨u, hi, hrest⟩ := andThen_next h
  obtain ⟨_, hj, hnil⟩ := andThen_next hrest
  cases hnil
  exact ⟨u, hi, hj⟩

/-- Settles O48: whichever comes first, the receive side is what the character makes of it, and the rest is what the
transmit event makes of it. -/
theorem lineEventsCommute : Obligations.LineEventsCommute := by
  intro i s w v hi hrt htr
  obtain ⟨t, ht, hw⟩ := execAll_pair_next hrt
  obtain ⟨u, hu, hv⟩ := execAll_pair_next htr
  have ht_joined : t = joined t (silent s) := Host.Outcome.next.inj (ht.symm.trans (exec_rxLine_joined hi ht s))
  have hu_joined : u = joined s u := Host.Outcome.next.inj (hu.symm.trans (exec_txEvent_joined rfl rfl hu))
  obtain ⟨hparams, -⟩ := parametersAndStimuliAreKept i s t ht
  have hen : t.en = s.en := exec_lineEvent_en ht (.inl hi)
  rw [ht_joined, exec_txEvent_joined (x := silent s) hparams hen hu] at hw
  rw [hu_joined, exec_rxLine_joined hi ht u] at hv
  cases hw
  cases hv
  rfl

/-! ### Reset -/

/-- Settles O15: reset lowers `de`, and the line log records a change (R133). -/
theorem resetLogsTheFallOfDe : Obligations.ResetLogsTheFallOfDe := by
  intro s
  refine ⟨_, rfl, ?_⟩
  rw [initialise_eq]
  rfl

end Sys2Proof.Machine
end

section
/-! The statements of 45_system.md: what the system commands answer and write, and that every command answers one
word. -/

namespace Sys2Proof.Machine

open Sys2Proof.Claims

/-! ### `NOP`, `BUS_INIT` and the reserved codes -/

/-- Settles O12: `NOP` only answers `OK`. -/
theorem nopAnswersOk : Obligations.NopAnswersOk := answerOk_eq_answered 0#17

/-- Settles O13: the assignments shared with reset, then `en` and `de_oe` are set and the word answered. -/
theorem busInitInitialises : Obligations.BusInitInitialises := by
  intro s
  rw [exec, execBusInit, initialise_eq, answerOk_eq, rspWord_eq_ofNat]
  rfl

/-- Settles O19: the three codes have one answer, which does not look at `en`. -/
theorem reservedCodesAnswerBadCommand : Obligations.ReservedCodesAnswerBadCommand := by
  rintro s i (rfl | rfl | rfl)
  all_goals exact reject_eq_answered .errBadCmd s

/-! ### The fault state: its causes and the return from it -/

/-- Settles O18: the enable check, then the four cause bits, which the data field holds zero-extended. -/
theorem faultCauseReadsTheFlags : Obligations.FaultCauseReadsTheFlags := by
  intro s
  refine ⟨fun he => ?_, fun he => ?_⟩
  · rw [exec, execFaultCause, ifInit_off he]
    exact reject_eq_answered .errNotInit s
  · rw [exec, execFaultCause, ifInit_on he, answerOk_eq_answered, BitVec.toNat_setWidth_of_le (by decide)]

/-- `RECOVER` in the fault state: retiring all that is buffered moves the read cursor to the write cursor (R91, R154). -/
theorem exec_recover_flushes {s : State} (he : s.en = true) (hs : s.status = .faulted) :
    exec .recover s = .next { answered 0 0 s with
      rd := s.wr % s.params.cursorMod, faultCause := 0#4, af := true, status := .idle } := by
  rw [exec, execRecover, ifInit_on he, if_pos hs, leaveFault_eq, rd_add_occupancy, orRefuse, answerOk_eq,
    rspWord_eq_ofNat]
  rfl

/-- Settles O17: the two checks of R154 in their order, then the flush. -/
theorem recoverFlushesAndResumes : Obligations.RecoverFlushesAndResumes := by
  intro s
  refine ⟨fun he => ?_, fun he hs => ?_, fun he hs => exec_recover_flushes he hs⟩
  · rw [exec, execRecover, ifInit_off he]
    exact reject_eq_answered .errNotInit s
  · rw [exec, execRecover, ifInit_on he, if_neg hs]
    exact reject_eq_answered .errState s

/-! ### One word for every command -/

theorem RspCode.code_toNat_le (c : RspCode) : c.code.toNat ≤ 6 := by
  cases c <;> decide

/-- A command that goes on is refused with an error code, or answers `OK` with some data (R150). -/
theorem Effect.host_cases {i : Instr} {s t : State} (e : Effect s i t) (hi : i.agent = .host) :
    (∃ c, t = respond c 0#17 (clearOutputs s)) ∨ ∃ d, t.rsp = some (rspWord .ok d) := by
  cases e with
  | rejected c => exact .inl ⟨c, rfl⟩
  | answered | busInit | retired | recovered | stored | started => exact .inr ⟨_, rfl⟩
  | ignored hline => rcases hline with hline | hline <;> simp [hline] at hi
  | faulted _ hline => simp [hline] at hi
  | reset | armed | addressed | collected | emitted | finished => cases hi

/-- A line event and reset have no result channel (R23, R170). -/
theorem Effect.rsp_eq_none {i : Instr} {s t : State} (e : Effect s i t) (hi : i.agent ≠ .host) : t.rsp = none := by
  cases e with
  | rejected _ hhost | answered _ hhost => exact absurd hhost hi
  | busInit | recovered => exact absurd rfl hi
  | retired _ hcmd => rcases hcmd with rfl | rfl <;> exact absurd rfl hi
  | stored _ _ _ hcmd => rcases hcmd with ⟨_, _, rfl⟩ | ⟨_, _, _, rfl⟩ <;> exact absurd rfl hi
  | started _ _ _ _ _ hcmd => rcases hcmd with ⟨_, _, _, rfl⟩ | ⟨-, _, rfl⟩ <;> exact absurd rfl hi
  | addressed | collected => exact acceptAndPush_rsp _ _
  | reset | ignored | faulted | armed | emitted | finished => rfl

/-- Settles O40, by the effects of the commands and of the other operations. -/
theorem everyCommandAnswersOneWord : Obligations.EveryCommandAnswersOneWord := by
  intro i s t h
  refine ⟨fun hi => ?_, (exec_effect h).rsp_eq_none⟩
  rcases (exec_effect h).host_cases hi with ⟨c, rfl⟩ | ⟨d, hrsp⟩
  · have hrefused : respond c 0#17 (clearOutputs s) = answered c.code.toNat 0 s :=
      Host.Outcome.next.inj (reject_eq_answered c s)
    exact ⟨c.code.toNat, 0, c.code_toNat_le, Nat.two_pow_pos 17, congrArg State.rsp hrefused, fun _ => hrefused⟩
  · exact ⟨0, d.toNat, Nat.zero_le 6, d.isLt, hrsp.trans (congrArg some (rspWord_eq_ofNat .ok d)),
      fun h0 => absurd rfl h0⟩

end Sys2Proof.Machine
end

section
/-! The statements of 60_exceptions.md: which operations write which elements of the state, how the fault state is
entered and left, and what the block does before `BUS_INIT`. -/

namespace Sys2Proof.Machine

open Sys2Proof.Claims

/-! ### Before `BUS_INIT` -/

/-- Check (2) of R150 stands before the meaning of every command that needs `en = 1`. -/
theorem exec_eq_ifInit {i : Instr} (hi : needsInit i) (s : State) : ∃ body, exec i s = ifInit s body := by
  obtain ⟨hhost, hexempt⟩ := hi
  cases i with
  | currentFrame | packetDone | skipByte | send | sendRaw | encodeFrame | recover | occupancy | txbufWrite | faultCause =>
    exact ⟨_, rfl⟩
  | nop | busInit | busStatus | reservedD | reservedE | reservedF => simp at hexempt
  | _ => cases hhost

/-- `TX_EVENT` is ignored while `en = 0` (R138). -/
theorem exec_txLine_disabled {i : Instr} (hi : i.agent = .txLine) {s : State} (he : s.en = false) :
    exec i s = .next (silent s) := by
  cases i with
  | txEvent => exact if_neg (by simp [he])
  | _ => cases hi

/-- Settles O41: commands stop at the enable check, and both lines check `en` first. -/
theorem disabledBlockRefusesAndIgnores : Obligations.DisabledBlockRefusesAndIgnores := by
  intro i s he
  refine ⟨fun hi => ?_, ?_⟩
  · obtain ⟨body, hbody⟩ := exec_eq_ifInit hi s
    rw [hbody, ifInit_off he]
    exact reject_eq_answered .errNotInit s
  · rintro (hi | hi)
    · exact exec_rxLine_disabled hi he
    · exact exec_txLine_disabled hi he

/-! ### Who writes the receive side -/

/-- `RING` is written by `accept_and_push` alone, and `wr` beside that by the initialising operations. -/
theorem Effect.ring_cases {i : Instr} {s t : State} (e : Effect s i t) :
    (t.ring = s.ring ∧ (t.wr = s.wr ∨ initialises i)) ∨
    ∃ d af, (i = .rxAddrMatch d ∨ i = .rxData d) ∧ t = acceptAndPush d { clearOutputs s with af := af } := by
  cases e with
  | addressed d => exact .inr ⟨d, false, .inl rfl, rfl⟩
  | collected d => exact .inr ⟨d, s.af, .inr rfl, rfl⟩
  | busInit => exact .inl ⟨rfl, .inr (.inl rfl)⟩
  | reset => exact .inl ⟨rfl, .inr (.inr rfl)⟩
  | retired n hi he hs hu =>
    obtain ⟨-, rfl⟩ := advanceRead_some hu
    exact .inl (by simp)
  | _ => exact .inl ⟨rfl, .inl rfl⟩

/-- The bytes of the window stand at their indices after every operation, whether or not it retires them (R97). -/
theorem Effect.readRing_window {i : Instr} {s t : State} (e : Effect s i t) {j : Nat} (hj : j < occupancy s) :
    readRing t (ringIndex s.params (s.rd + j)) = readRing s (ringIndex s.params (s.rd + j)) := by
  rcases e.ring_cases with ⟨hring, -⟩ | ⟨d, af, -, rfl⟩
  · exact readRing_congr hring _
  · have hkept := acceptAndPush_window d { clearOutputs s with af := af } hj
    rwa [ringByte, acceptAndPush_params, acceptAndPush_rd] at hkept

/-- `rd` is written by the retiring commands and the initialising operations alone (R97). -/
theorem Effect.rd_cases {i : Instr} {s t : State} (e : Effect s i t) :
    t.rd = s.rd ∨ i = .packetDone ∨ i = .skipByte ∨ i = .recover ∨ initialises i := by
  cases e with
  | retired n hi => exact .inr (hi.imp_right .inl)
  | recovered | busInit | reset => exact .inr (by simp [initialises])
  | addressed | collected => exact .inl (acceptAndPush_rd _ _)
  | _ => exact .inl rfl

/-- The detector never reports the fault state (R101). -/
theorem updateStatus_ne_faulted {s : State} (h : s.status ≠ .faulted) : (updateStatus s).status ≠ .faulted := by
  rw [updateStatus_status h]
  exact detect_ne_faulted s

/-- `status` and `af` are written by received characters, the retiring commands and the initialising operations alone. A
character never leaves the fault state, a command or reset never enters it (R166, R168). -/
theorem Effect.status_cases {i : Instr} {s t : State} (e : Effect s i t) :
    (t.status = s.status ∧ t.af = s.af) ∨
    (i.agent = .rxLine ∧ (s.status = .faulted → t.status = .faulted)) ∨
    ((i = .packetDone ∨ i = .skipByte) ∧ s.status ≠ .faulted ∧ t.status ≠ .faulted) ∨
    ((i = .recover ∨ initialises i) ∧ t.status ≠ .faulted) := by
  cases e with
  | faulted c hi => exact .inr (.inl ⟨hi, fun _ => rfl⟩)
  | armed d he hs | addressed d he hs | collected d he hs => exact .inr (.inl ⟨rfl, fun h => absurd h hs⟩)
  | @retired _ n u hi he hs hu =>
    have hnf : u.status ≠ .faulted := by
      obtain ⟨-, rfl⟩ := advanceRead_some hu
      exact hs
    exact .inr (.inr (.inl ⟨hi, hs, updateStatus_ne_faulted hnf⟩))
  | recovered | busInit | reset => exact .inr (.inr (.inr (by simp [initialises])))
  | _ => exact .inl ⟨rfl, rfl⟩

/-- `accept_and_push` only sets causes: none with room, the overflow on a full ring (R121). -/
theorem acceptAndPush_faultCause (d : Byte) (s : State) :
    ∃ c, (acceptAndPush d s).faultCause = s.faultCause ||| c := by
  unfold acceptAndPush
  cases hp : push d s with
  | none => exact ⟨overflowCause, rfl⟩
  | some t =>
    obtain ⟨-, rfl⟩ := push_some hp
    exact ⟨0#4, by simp⟩

/-- `fault_cause` is kept, or bits of it are set by a received character, or all of it is cleared by `RECOVER`,
`BUS_INIT` or reset (R18). -/
theorem Effect.faultCause_cases {i : Instr} {s t : State} (e : Effect s i t) :
    t.faultCause = s.faultCause ∨
    (i.agent = .rxLine ∧ ∃ c, t.faultCause = s.faultCause ||| c) ∨
    (t.faultCause = 0#4 ∧ (i = .recover ∨ initialises i)) := by
  cases e with
  | faulted c hi => exact .inr (.inl ⟨hi, c, rfl⟩)
  | addressed d | collected d => exact .inr (.inl ⟨rfl, acceptAndPush_faultCause d _⟩)
  | recovered | busInit | reset => exact .inr (.inr (by simp [initialises]))
  | retired n hi he hs hu =>
    obtain ⟨-, rfl⟩ := advanceRead_some hu
    exact .inl (by simp)
  | _ => exact .inl rfl

/-- Setting cause bits keeps every cause recorded. -/
theorem or_and_causes (old new : BitVec 4) : (old ||| new) &&& old = old := by
  revert old new
  decide

/-! ### Who writes the transmit side -/

/-- `TXBUF` is written by its three commands alone (R50). -/
theorem Effect.txbuf_cases {i : Instr} {s t : State} (e : Effect s i t) :
    t.txbuf = s.txbuf ∨
    (∃ a n, i = .txbufWrite a n) ∨ (∃ a b n, i = .encodeFrame a b n) ∨ ∃ a b n, i = .send a b n := by
  cases e with
  | stored _ _ _ hi => exact .inr (hi.imp_right .inl)
  | started _ _ _ _ _ hi =>
    rcases hi with hsend | ⟨rfl, -⟩
    · exact .inr (.inr (.inr hsend))
    · exact .inl rfl
  | retired n hi he hs hu =>
    obtain ⟨-, rfl⟩ := advanceRead_some hu
    exact .inl (by simp)
  | addressed | collected => exact .inl (acceptAndPush_txbuf _ _)
  | _ => exact .inl rfl

/-- The transmit registers: nothing but `tx_pos` moves and that by a transmit event, or a start of a send raises
`tx_busy` and `de`, or a transmit event or an initialising operation lowers them (R136, R138, R152). -/
theorem Effect.transmit_cases {i : Instr} {s t : State} (e : Effect s i t) :
    ((t.txPos = s.txPos ∨ i = .txEvent) ∧ t.txLen = s.txLen ∧ t.txBusy = s.txBusy ∧ t.de = s.de) ∨
    (startsSend i ∧ t.txBusy = true ∧ t.de = true) ∨
    ((i = .txEvent ∧ t.txLen = s.txLen ∨ initialises i) ∧ t.txBusy = false ∧ t.de = false) := by
  cases e with
  | started _ _ _ _ _ hi => exact .inr (.inl ⟨hi.imp_right And.right, rfl, rfl⟩)
  | emitted => exact .inl ⟨.inr rfl, rfl, rfl, rfl⟩
  | finished => exact .inr (.inr ⟨.inl ⟨rfl, rfl⟩, rfl, rfl⟩)
  | busInit => exact .inr (.inr ⟨.inr (.inl rfl), rfl, rfl⟩)
  | reset => exact .inr (.inr ⟨.inr (.inr rfl), rfl, rfl⟩)
  | retired n hi he hs hu =>
    obtain ⟨-, rfl⟩ := advanceRead_some hu
    exact .inl (by simp)
  | addressed | collected => exact .inl (by simp)
  | _ => exact .inl ⟨.inl rfl, rfl, rfl, rfl⟩

/-- `en` and `de_oe` move together, by `BUS_INIT` and reset alone (R21, R22). -/
theorem Effect.enable_cases {i : Instr} {s t : State} (e : Effect s i t) :
    (t.en = s.en ∧ t.deOe = s.deOe) ∨ (i = .busInit ∧ t.en = true ∧ t.deOe = true) ∨
    (i = .reset ∧ t.en = false ∧ t.deOe = false) := by
  cases e with
  | busInit => exact .inr (.inl ⟨rfl, rfl, rfl⟩)
  | reset => exact .inr (.inr ⟨rfl, rfl, rfl⟩)
  | retired n hi he hs hu =>
    obtain ⟨-, rfl⟩ := advanceRead_some hu
    exact .inl (by simp)
  | addressed | collected => exact .inl (by simp)
  | _ => exact .inl ⟨rfl, rfl⟩

/-! ### The statements -/

/-- Two levels that are kept, or raised together by `up`, or lowered together by `down`, change by these alone, each in
its direction. -/
theorem level_changes {new old new' old' : Bool} {up down : Prop}
    (h : (new = old ∧ new' = old') ∨ (up ∧ new = true ∧ new' = true) ∨ (down ∧ new = false ∧ new' = false)) :
    (new ≠ old → if new then up else down) ∧ (new' ≠ old' → if new' then up else down) := by
  rcases h with ⟨hkept, hkept'⟩ | ⟨hup, rfl, rfl⟩ | ⟨hdown, rfl, rfl⟩
  · exact ⟨absurd hkept, absurd hkept'⟩
  · exact ⟨fun _ => hup, fun _ => hup⟩
  · exact ⟨fun _ => hdown, fun _ => hdown⟩

/-- Settles O43: each clause is read off the cases of its own element. -/
theorem eachPartHasItsOwnWriters : Obligations.EachPartHasItsOwnWriters := by
  intro i s t h
  have e := exec_effect h
  obtain ⟨htxBusy, hde⟩ := level_changes (e.transmit_cases.imp (fun ⟨_, _, hkept⟩ => hkept)
    (Or.imp_right (And.imp_left (Or.imp_left And.left))))
  obtain ⟨hen, hdeOe⟩ := level_changes e.enable_cases
  refine ⟨?ring, ?wr, e.rd_cases.resolve_left, ?txbuf, ?txPos, ?txLen, htxBusy, hde, hdeOe, hen, ?status, ?cause,
    ?window⟩
  case ring =>
    rintro ⟨j, hj⟩
    rcases e.ring_cases with ⟨hring, -⟩ | ⟨d, -, hi, -⟩
    · exact absurd (readRing_congr hring j) hj
    · exact hi.imp (⟨d, ·⟩) (⟨d, ·⟩)
  case wr =>
    intro hwr
    rcases e.ring_cases with ⟨-, hw⟩ | ⟨d, -, hi, -⟩
    · exact .inr (.inr (hw.resolve_left hwr))
    · exact hi.imp (⟨d, ·⟩) fun hd => .inl ⟨d, hd⟩
  case txbuf =>
    rintro ⟨j, hj⟩
    exact e.txbuf_cases.resolve_left fun hm => hj (by rw [readTxbuf, readTxbuf, hm])
  case txPos =>
    intro hne
    rcases e.transmit_cases with ⟨hpos, -⟩ | ⟨hi, -⟩ | ⟨hi, -⟩
    · exact .inr (.inl (hpos.resolve_left hne))
    · exact .inl hi
    · exact .inr (hi.imp_left And.left)
  case txLen =>
    intro hne
    rcases e.transmit_cases with ⟨-, hlen, -⟩ | ⟨hi, -⟩ | ⟨hi, -⟩
    · exact absurd hlen hne
    · exact .inl hi
    · exact .inr (hi.resolve_left fun h => hne h.2)
  case status =>
    intro hne
    rcases e.status_cases with ⟨hst, haf⟩ | ⟨hi, -⟩ | ⟨hi, -⟩ | ⟨hi, -⟩
    · exact absurd hne (by simp [hst, haf])
    · exact .inl hi
    · exact .inr (hi.imp_right .inl)
    · exact .inr (.inr (.inr hi))
  case cause =>
    intro hne
    rcases e.faultCause_cases with heq | ⟨hi, c, hset⟩ | hcleared
    · exact absurd heq hne
    · exact .inl ⟨hi, by rw [hset, or_and_causes]⟩
    · exact .inr hcleared
  case window =>
    intro j hj
    rw [buffered_eq_occupancy] at hj
    exact e.readRing_window hj

/-- Settles O44: a character moves the status into `Faulted` and sets causes; only the host and reset undo either. -/
theorem faultStateEntryAndExit : Obligations.FaultStateEntryAndExit := by
  intro i s t h
  have e := exec_effect h
  refine ⟨fun hs ht => ?_, fun hs ht => ?_, fun hs hlost => ?_⟩
  · rcases e.status_cases with ⟨hkept, -⟩ | ⟨hi, -⟩ | ⟨-, -, hnf⟩ | ⟨-, hnf⟩
    · exact absurd (hkept ▸ ht) hs
    · exact hi
    · exact absurd ht hnf
    · exact absurd ht hnf
  · rcases e.status_cases with ⟨hkept, -⟩ | ⟨-, hstays⟩ | ⟨-, hnf, -⟩ | ⟨hi, -⟩
    · exact absurd (hkept.trans hs) ht
    · exact absurd (hstays hs) ht
    · exact absurd hs hnf
    · exact hi
  · rcases e.faultCause_cases with hkept | ⟨-, c, hset⟩ | ⟨-, hi⟩
    · exact absurd (by rw [hkept, BitVec.and_self]) hlost
    · exact absurd (by rw [hset, or_and_causes]) hlost
    · exact hi

end Sys2Proof.Machine
end

section
/-! The statements of 70_reset_and_hazards.md: what hardware reset assigns and leaves, and two hazards of the receive
side, a header longer than the ring and a frame behind a pending one. -/

namespace Sys2Proof.Machine

open Sys2Proof.Claims

/-! ### Reset -/

/-- Settles O14: the assignments shared with `BUS_INIT`, then `en` and `de_oe` are lowered. -/
theorem resetAssigns : Obligations.ResetAssigns := by
  intro s
  rw [exec, execReset, initialise_eq]
  exact ⟨_, rfl⟩

/-- Settles O16: each register is read off `State.reset`, and equal cursors leave the ring empty. -/
theorem resetStateIsTheSpecs : Obligations.ResetStateIsTheSpecs :=
  ⟨rfl, (buffered_eq_occupancy _).trans (occupancy_eq_zero rfl), rfl, rfl, rfl, rfl, rfl, rfl, rfl, rfl, rfl, rfl⟩

/-! ### A header that promises more than the ring can hold -/

/-- What line events keep from `s` on: the invariant, the parameters, and the buffered bytes at the head of the queue
(R97). -/
structure QueueGrewFrom (s t : State) : Prop where
  inv : BlockInv t
  params : t.params = s.params
  queue_prefix : queue s <+: queue t

theorem QueueGrewFrom.exec_lineEvent {i : Instr} {s t u : State} (hg : QueueGrewFrom s t) (hi : IsLineEvent i)
    (h : exec i t = .next u) : QueueGrewFrom s u where
  inv := exec_blockInv h hg.inv
  params := by
    obtain ⟨hparams, -⟩ := (exec_effect h).params_inputs
    exact hparams.trans hg.params
  queue_prefix := hg.queue_prefix.trans (exec_lineEvent_queue h hi)

theorem occupancy_le_of_queue_prefix {s t : State} (h : queue s <+: queue t) : occupancy s ≤ occupancy t := by
  simpa only [queue_length] using h.length_le

theorem headerSumHolds_of_queue_prefix {s t : State} (h : queue s <+: queue t) (h6 : 6 ≤ occupancy s) :
    headerSumHolds t ↔ headerSumHolds s := by
  have hbyte {i : Nat} (hi : i < 6) : frameByte t i = frameByte s i := frameByte_of_queue_prefix h (hi.trans_le h6)
  rw [headerSumHolds, hbyte (by decide), hbyte (by decide), hbyte (by decide), hbyte (by decide), hbyte (by decide),
    hbyte (by decide)]

/-- Behind a valid header whose frame is longer than `CAP` the detector's last step never finds the frame whole (R101,
R190). -/
theorem detect_of_oversized {s : State} (hocc : occupancy s ≤ s.params.cap) (h6 : 6 ≤ occupancy s)
    (hsum : headerSumHolds s) (hlen : s.params.cap < frameLength s) : detect s = .idle := by
  rw [detect_eq_steps, if_neg (not_lt.2 h6), if_pos hsum, if_neg (not_le.2 (hocc.trans_lt hlen))]

/-- Settles O57: line events leave the header at the head of the queue, and the ring never holds the frame it
promises. -/
theorem oversizedHeaderNeverCompletes : Obligations.OversizedHeaderNeverCompletes := by
  intro is s t hinv _ h6 hsum hlen his h
  rw [buffered_eq_occupancy] at h6
  obtain ⟨htinv, hparams, hprefix⟩ : QueueGrewFrom s t :=
    execAll_induct (fun i hi _ _ hu => hu.exec_lineEvent (his i hi)) h ⟨hinv, rfl, List.prefix_rfl⟩
  obtain ⟨-, ⟨⟨-, -, hocc⟩, -⟩, -⟩ := (blockInv_iff t).1 htinv
  have h6t : 6 ≤ occupancy t := h6.trans (occupancy_le_of_queue_prefix hprefix)
  have hlent : t.params.cap < frameLength t := by rwa [frameLength_of_queue_prefix hprefix h6, hparams]
  have hdetect := detect_of_oversized hocc h6t ((headerSumHolds_of_queue_prefix hprefix h6).2 hsum) hlent
  by_cases hf : t.status = .faulted
  · exact .inr hf
  · exact .inl ((statusCurrent_of_blockInv htinv hf).trans hdetect)

/-! ### A frame behind a pending frame -/

/-- A byte pushed behind a pending frame leaves it pending, and the detector arms the filter at once (R102, R103). -/
theorem acceptAndPush_behind_completeFrame (d : Byte) {s : State} (hs : s.status = .completeFrame)
    (hdetect : detect s = .completeFrame) (hroom : occupancy s < s.params.cap) :
    acceptAndPush d s = { s with
      ring := Memory.write s.ring (ringIndex s.params s.wr) d, wr := (s.wr + 1) % s.params.cursorMod
      af := true } := by
  rcases acceptAndPush_cases d (s := s) (by simp [hs]) with ⟨t, ht, hq, he⟩ | ⟨hfull, -⟩
  · have hpending : detect t = s.status := by
      rw [detect_eq] at hdetect ⊢
      rw [hq, detectBytes_append (by simp [hdetect]), hdetect, hs]
    obtain ⟨-, rfl⟩ := push_some ht
    rw [he, hpending]
    simp [hs]
  · exact absurd hroom (not_lt.2 hfull)

/-- Settles O58: the address character is pushed behind the pending frame, and the filter it finds armed again drops
the rest. -/
theorem frameBehindAPendingFrameIsLost : Obligations.FrameBehindAPendingFrameIsLost := by
  intro s d rest hinv he hs hd hroom
  rw [buffered_eq_occupancy] at hroom
  obtain ⟨-, -, ⟨hcur, -, harmed⟩, -⟩ := (blockInv_iff s).1 hinv
  have hnf : s.status ≠ .faulted := by simp [hs]
  have hdetect : detect s = .completeFrame := (hcur hnf).symm.trans hs
  have haddress := exec_rxAddrMatch_accepts he hnf d
  rw [acceptAndPush_behind_completeFrame d (s := disableAddressFilter (clearOutputs s)) hs hdetect hroom] at haddress
  refine ⟨_, ?_, readRing_write s (ringIndex s.params s.wr) d⟩
  rw [frameCharacters, if_pos hd, execAll_cons_next haddress, execAll_rxData_filtered rfl rfl, ← harmed (.inl hs)]
  rfl

end Sys2Proof.Machine
end
